-- ==== Sys2Proof/Word.lean ====
section
/-! DEFINITION. The word types of the hardware (spec/00_scope.md R5, R7, R8; spec/30_encoding.md R52).
Bit 0 of every value is its least significant bit, and every value is unsigned. -/

namespace Sys2Proof

/-- An 8-bit unsigned value: a general register, a timer, a byte of Memory, the immediate `kk`. -/
abbrev Byte := BitVec 8

/-- A 16-bit unsigned value: I, PC, a return address, an instruction word. -/
abbrev Word := BitVec 16

/-- The 4-bit number of a general register V0 to VF: the fields `x` and `y` (R54: every value is legal). -/
abbrev Reg := BitVec 4

/-- A 4-bit field that counts: `n` of Dxyn. -/
abbrev Nibble := BitVec 4

/-- The 12-bit address field `nnn`, and an address of Memory. -/
abbrev Addr := BitVec 12

/-- VF, "V[0xF]", the flags register (spec/10_state.md R17, R18). -/
abbrev Reg.vf : Reg := 0xF#4

end Sys2Proof
end

