-- ==== Sys2Proof/Syntax.lean ====
section
/-! DEFINITION. The instructions: one constructor per row of spec/opcode_table.json, in the table's order, with the
operand fields of spec/30_encoding.md R52 and R54. -/

namespace Sys2Proof

/-- The 34 instructions of spec/30_encoding.md R56. `x` and `y` are register numbers, `kk` an 8-bit immediate, `nnn` a
12-bit address, `n` a 4-bit count. -/
inductive Instr where
  /-- `00E0` CLS, R75 -/
  | cls
  /-- `00EE` RET, R79 -/
  | ret
  /-- `1nnn` JP nnn, R80 -/
  | jp (nnn : Addr)
  /-- `2nnn` CALL nnn, R81 -/
  | call (nnn : Addr)
  /-- `3xkk` SE Vx, kk, R82 -/
  | seImm (x : Reg) (kk : Byte)
  /-- `4xkk` SNE Vx, kk, R83 -/
  | sneImm (x : Reg) (kk : Byte)
  /-- `5xy0` SE Vx, Vy, R84 -/
  | seReg (x y : Reg)
  /-- `6xkk` LD Vx, kk, R89 -/
  | ldImm (x : Reg) (kk : Byte)
  /-- `7xkk` ADD Vx, kk, R90 -/
  | addImm (x : Reg) (kk : Byte)
  /-- `8xy0` LD Vx, Vy, R91 -/
  | ldReg (x y : Reg)
  /-- `8xy1` OR Vx, Vy, R92 -/
  | or (x y : Reg)
  /-- `8xy2` AND Vx, Vy, R93 -/
  | and (x y : Reg)
  /-- `8xy3` XOR Vx, Vy, R94 -/
  | xor (x y : Reg)
  /-- `8xy4` ADD Vx, Vy, R95 -/
  | addReg (x y : Reg)
  /-- `8xy5` SUB Vx, Vy, R96 -/
  | sub (x y : Reg)
  /-- `8xy6` SHR Vx, R97; `y` is part of the word and is not read -/
  | shr (x y : Reg)
  /-- `8xy7` SUBN Vx, Vy, R98 -/
  | subn (x y : Reg)
  /-- `8xyE` SHL Vx, R99; `y` is part of the word and is not read -/
  | shl (x y : Reg)
  /-- `9xy0` SNE Vx, Vy, R85 -/
  | sneReg (x y : Reg)
  /-- `Annn` LD I, nnn, R102 -/
  | ldI (nnn : Addr)
  /-- `Bnnn` JP V0, nnn, R86 -/
  | jpV0 (nnn : Addr)
  /-- `Cxkk` RND Vx, kk, R100 -/
  | rnd (x : Reg) (kk : Byte)
  /-- `Dxyn` DRW Vx, Vy, n, R76 -/
  | drw (x y : Reg) (n : Nibble)
  /-- `Ex9E` SKP Vx, R108 -/
  | skp (x : Reg)
  /-- `ExA1` SKNP Vx, R109 -/
  | sknp (x : Reg)
  /-- `Fx07` LD Vx, DT, R110 -/
  | ldVxDt (x : Reg)
  /-- `Fx0A` LD Vx, K, R111 -/
  | ldVxK (x : Reg)
  /-- `Fx15` LD DT, Vx, R112 -/
  | ldDt (x : Reg)
  /-- `Fx18` LD ST, Vx, R113 -/
  | ldSt (x : Reg)
  /-- `Fx1E` ADD I, Vx, R103 -/
  | addI (x : Reg)
  /-- `Fx29` LD F, Vx, R104 -/
  | ldF (x : Reg)
  /-- `Fx33` LD B, Vx, R105 -/
  | ldB (x : Reg)
  /-- `Fx55` LD [I], Vx, R106 -/
  | ldMemI (x : Reg)
  /-- `Fx65` LD Vx, [I], R107 -/
  | ldIMem (x : Reg)
deriving DecidableEq, Repr

end Sys2Proof
end

