-- ==== Sys2Proof/WellFormed.lean ====
section
/-! DEFINITION. Which words are instructions, written from the table of illegal words of spec/30_encoding.md R59, class by
class. Decode.lean is written from R56 to R58; that the two agree is a statement of Certificates/Slice0.

An `Instr` needs no check of its own: R54 says "Every value of `x` and `y` is legal, including `0xF` and `x = y`", and each
field's type is exactly as wide as its bits (R52), so a term outside the encoding cannot be written. What can be ill-formed
on this hardware is a WORD, and every class of R59's table is one check below. -/

namespace Sys2Proof

/-- Class 0x0 (R59): "every `0nnn` except 0x00E0 and 0x00EE" is illegal. -/
def legalClass0 (w : Word) : Bool := w == 0x00E0#16 || w == 0x00EE#16

/-- Classes 0x5 and 0x9 (R59): illegal with `n ≠ 0`. -/
def legalRegSkip (w : Word) : Bool := w.extractLsb' 0 4 == 0x0#4

/-- Class 0x8 (R59): illegal with `n` one of 8, 9, A, B, C, D, F. -/
def legalClass8 (w : Word) : Bool :=
  !([0x8#4, 0x9#4, 0xA#4, 0xB#4, 0xC#4, 0xD#4, 0xF#4].contains (w.extractLsb' 0 4))

/-- Class 0xE (R59): illegal unless `kk` is 0x9E or 0xA1. -/
def legalClassE (w : Word) : Bool := [0x9E#8, 0xA1#8].contains (w.extractLsb' 0 8)

/-- Class 0xF (R59): illegal unless `kk` is one of the nine listed. -/
def legalClassF (w : Word) : Bool :=
  [0x07#8, 0x0A#8, 0x15#8, 0x18#8, 0x1E#8, 0x29#8, 0x33#8, 0x55#8, 0x65#8].contains (w.extractLsb' 0 8)

/-- A word is an instruction exactly when R59 does not list it; the classes not named there "have no illegal word". -/
def legalWord (w : Word) : Bool :=
  match (w.extractLsb' 12 4).toNat with
  | 0x0 => legalClass0 w
  | 0x5 => legalRegSkip w
  | 0x8 => legalClass8 w
  | 0x9 => legalRegSkip w
  | 0xE => legalClassE w
  | 0xF => legalClassF w
  | _ => true

end Sys2Proof
end

