-- ==== Sys2Proof/Decode.lean ====
section
/-! DEFINITION. The Instruction Decoder of spec/30_encoding.md: the six fields of a word (R52, R53), the match and mask
table (R57), the two-level dispatch (R58), and the encoder written from the same encodings. -/

namespace Sys2Proof

/-- The fields of R52, all read from the same word at fixed positions; they overlap. -/
structure Fields where
  cls : Nibble
  x : Reg
  y : Reg
  n : Nibble
  kk : Byte
  nnn : Addr
deriving DecidableEq, Repr

/-- `Decode(w)` of R53: pure, total, and it succeeds on every word. -/
def fieldsOf (w : Word) : Fields where
  cls := w.extractLsb' 12 4
  x := w.extractLsb' 8 4
  y := w.extractLsb' 4 4
  n := w.extractLsb' 0 4
  kk := w.extractLsb' 0 8
  nnn := w.extractLsb' 0 12

/-- The 16-bit word whose nibbles are `class x y n` (R52). -/
def nibbleWord (cls x y n : BitVec 4) : Word := cls ++ x ++ y ++ n

/-- The word of a `class x kk` pattern (R52). -/
def immWord (cls : BitVec 4) (x : Reg) (kk : Byte) : Word := cls ++ x ++ kk

/-- The word of a `class nnn` pattern (R52). -/
def addrWord (cls : BitVec 4) (nnn : Addr) : Word := cls ++ nnn

/-- A row of the match and mask table (R57). -/
structure Row where
  mnemonic : String
  mask : Word
  value : Word
deriving DecidableEq, Repr

/-- The row of R57 an instruction belongs to. -/
def rowOf (i : Instr) : Row :=
  match i with
  | .cls => ⟨"CLS", 0xFFFF#16, 0x00E0#16⟩
  | .ret => ⟨"RET", 0xFFFF#16, 0x00EE#16⟩
  | .jp _ => ⟨"JP", 0xF000#16, 0x1000#16⟩
  | .call _ => ⟨"CALL", 0xF000#16, 0x2000#16⟩
  | .seImm _ _ => ⟨"SE_IMM", 0xF000#16, 0x3000#16⟩
  | .sneImm _ _ => ⟨"SNE_IMM", 0xF000#16, 0x4000#16⟩
  | .seReg _ _ => ⟨"SE_REG", 0xF00F#16, 0x5000#16⟩
  | .ldImm _ _ => ⟨"LD_IMM", 0xF000#16, 0x6000#16⟩
  | .addImm _ _ => ⟨"ADD_IMM", 0xF000#16, 0x7000#16⟩
  | .ldReg _ _ => ⟨"LD_REG", 0xF00F#16, 0x8000#16⟩
  | .or _ _ => ⟨"OR", 0xF00F#16, 0x8001#16⟩
  | .and _ _ => ⟨"AND", 0xF00F#16, 0x8002#16⟩
  | .xor _ _ => ⟨"XOR", 0xF00F#16, 0x8003#16⟩
  | .addReg _ _ => ⟨"ADD_REG", 0xF00F#16, 0x8004#16⟩
  | .sub _ _ => ⟨"SUB", 0xF00F#16, 0x8005#16⟩
  | .shr _ _ => ⟨"SHR", 0xF00F#16, 0x8006#16⟩
  | .subn _ _ => ⟨"SUBN", 0xF00F#16, 0x8007#16⟩
  | .shl _ _ => ⟨"SHL", 0xF00F#16, 0x800E#16⟩
  | .sneReg _ _ => ⟨"SNE_REG", 0xF00F#16, 0x9000#16⟩
  | .ldI _ => ⟨"LD_I", 0xF000#16, 0xA000#16⟩
  | .jpV0 _ => ⟨"JP_V0", 0xF000#16, 0xB000#16⟩
  | .rnd _ _ => ⟨"RND", 0xF000#16, 0xC000#16⟩
  | .drw _ _ _ => ⟨"DRW", 0xF000#16, 0xD000#16⟩
  | .skp _ => ⟨"SKP", 0xF0FF#16, 0xE09E#16⟩
  | .sknp _ => ⟨"SKNP", 0xF0FF#16, 0xE0A1#16⟩
  | .ldVxDt _ => ⟨"LD_VX_DT", 0xF0FF#16, 0xF007#16⟩
  | .ldVxK _ => ⟨"LD_VX_K", 0xF0FF#16, 0xF00A#16⟩
  | .ldDt _ => ⟨"LD_DT", 0xF0FF#16, 0xF015#16⟩
  | .ldSt _ => ⟨"LD_ST", 0xF0FF#16, 0xF018#16⟩
  | .addI _ => ⟨"ADD_I", 0xF0FF#16, 0xF01E#16⟩
  | .ldF _ => ⟨"LD_F", 0xF0FF#16, 0xF029#16⟩
  | .ldB _ => ⟨"LD_B", 0xF0FF#16, 0xF033#16⟩
  | .ldMemI _ => ⟨"LD_MEM_I", 0xF0FF#16, 0xF055#16⟩
  | .ldIMem _ => ⟨"LD_I_MEM", 0xF0FF#16, 0xF065#16⟩

/-- The 34 rows of R57, in the table's order. -/
def opcodeTable : List Row :=
  [rowOf .cls, rowOf .ret, rowOf (.jp 0), rowOf (.call 0), rowOf (.seImm 0 0), rowOf (.sneImm 0 0), rowOf (.seReg 0 0),
   rowOf (.ldImm 0 0), rowOf (.addImm 0 0), rowOf (.ldReg 0 0), rowOf (.or 0 0), rowOf (.and 0 0)] ++
  [rowOf (.xor 0 0), rowOf (.addReg 0 0), rowOf (.sub 0 0), rowOf (.shr 0 0), rowOf (.subn 0 0), rowOf (.shl 0 0),
   rowOf (.sneReg 0 0), rowOf (.ldI 0), rowOf (.jpV0 0), rowOf (.rnd 0 0), rowOf (.drw 0 0 0), rowOf (.skp 0)] ++
  [rowOf (.sknp 0), rowOf (.ldVxDt 0), rowOf (.ldVxK 0), rowOf (.ldDt 0), rowOf (.ldSt 0), rowOf (.addI 0), rowOf (.ldF 0),
   rowOf (.ldB 0), rowOf (.ldMemI 0), rowOf (.ldIMem 0)]

/-- `w & mask = match` (R57). -/
def rowMatches (r : Row) (w : Word) : Bool := w &&& r.mask == r.value

/-- `Match(w)` of R57: the row that matches the word, or none. -/
def matchWord (w : Word) : Option Row := opcodeTable.find? (fun r => rowMatches r w)

/-- Second level of the dispatch for class 0x0: the discriminator is `w[11:0]` (R58). -/
def decodeClass0 (f : Fields) : Option Instr :=
  if f.nnn = 0x0E0#12 then some .cls else if f.nnn = 0x0EE#12 then some .ret else none

/-- Second level for class 0x8: the discriminator is `n` (R58). -/
def decodeClass8 (f : Fields) : Option Instr :=
  match f.n.toNat with
  | 0x0 => some (.ldReg f.x f.y)
  | 0x1 => some (.or f.x f.y)
  | 0x2 => some (.and f.x f.y)
  | 0x3 => some (.xor f.x f.y)
  | 0x4 => some (.addReg f.x f.y)
  | 0x5 => some (.sub f.x f.y)
  | 0x6 => some (.shr f.x f.y)
  | 0x7 => some (.subn f.x f.y)
  | 0xE => some (.shl f.x f.y)
  | _ => none

/-- Second level for class 0xE: the discriminator is `kk` (R58). -/
def decodeClassE (f : Fields) : Option Instr :=
  if f.kk = 0x9E#8 then some (.skp f.x) else if f.kk = 0xA1#8 then some (.sknp f.x) else none

/-- Second level for class 0xF: the discriminator is `kk` (R58). -/
def decodeClassF (f : Fields) : Option Instr :=
  match f.kk.toNat with
  | 0x07 => some (.ldVxDt f.x)
  | 0x0A => some (.ldVxK f.x)
  | 0x15 => some (.ldDt f.x)
  | 0x18 => some (.ldSt f.x)
  | 0x1E => some (.addI f.x)
  | 0x29 => some (.ldF f.x)
  | 0x33 => some (.ldB f.x)
  | 0x55 => some (.ldMemI f.x)
  | 0x65 => some (.ldIMem f.x)
  | _ => none

/-- The first level of the dispatch, on the class nibble (R58). Classes 0x5 and 0x9 also require `n = 0`. -/
def decodeFields (f : Fields) : Option Instr :=
  match f.cls.toNat with
  | 0x0 => decodeClass0 f
  | 0x1 => some (.jp f.nnn)
  | 0x2 => some (.call f.nnn)
  | 0x3 => some (.seImm f.x f.kk)
  | 0x4 => some (.sneImm f.x f.kk)
  | 0x5 => if f.n = 0x0#4 then some (.seReg f.x f.y) else none
  | 0x6 => some (.ldImm f.x f.kk)
  | 0x7 => some (.addImm f.x f.kk)
  | 0x8 => decodeClass8 f
  | 0x9 => if f.n = 0x0#4 then some (.sneReg f.x f.y) else none
  | 0xA => some (.ldI f.nnn)
  | 0xB => some (.jpV0 f.nnn)
  | 0xC => some (.rnd f.x f.kk)
  | 0xD => some (.drw f.x f.y f.n)
  | 0xE => decodeClassE f
  | 0xF => decodeClassF f
  | _ => none

/-- The instruction a word stands for, or none for an illegal word (R56 to R59). -/
def decodeWord (w : Word) : Option Instr := decodeFields (fieldsOf w)

/-- The word of an instruction, from the "Encoding" line of its rule. -/
def encode (i : Instr) : Word :=
  match i with
  | .cls => 0x00E0#16
  | .ret => 0x00EE#16
  | .jp nnn => addrWord 0x1 nnn
  | .call nnn => addrWord 0x2 nnn
  | .seImm x kk => immWord 0x3 x kk
  | .sneImm x kk => immWord 0x4 x kk
  | .seReg x y => nibbleWord 0x5 x y 0x0
  | .ldImm x kk => immWord 0x6 x kk
  | .addImm x kk => immWord 0x7 x kk
  | .ldReg x y => nibbleWord 0x8 x y 0x0
  | .or x y => nibbleWord 0x8 x y 0x1
  | .and x y => nibbleWord 0x8 x y 0x2
  | .xor x y => nibbleWord 0x8 x y 0x3
  | .addReg x y => nibbleWord 0x8 x y 0x4
  | .sub x y => nibbleWord 0x8 x y 0x5
  | .shr x y => nibbleWord 0x8 x y 0x6
  | .subn x y => nibbleWord 0x8 x y 0x7
  | .shl x y => nibbleWord 0x8 x y 0xE
  | .sneReg x y => nibbleWord 0x9 x y 0x0
  | .ldI nnn => addrWord 0xA nnn
  | .jpV0 nnn => addrWord 0xB nnn
  | .rnd x kk => immWord 0xC x kk
  | .drw x y n => nibbleWord 0xD x y n
  | .skp x => immWord 0xE x 0x9E
  | .sknp x => immWord 0xE x 0xA1
  | .ldVxDt x => immWord 0xF x 0x07
  | .ldVxK x => immWord 0xF x 0x0A
  | .ldDt x => immWord 0xF x 0x15
  | .ldSt x => immWord 0xF x 0x18
  | .addI x => immWord 0xF x 0x1E
  | .ldF x => immWord 0xF x 0x29
  | .ldB x => immWord 0xF x 0x33
  | .ldMemI x => immWord 0xF x 0x55
  | .ldIMem x => immWord 0xF x 0x65

/-- A big-endian pair of bytes as one word: the byte at the lower address is the high 8 bits (spec/20_memory.md R35). -/
def joinBytes (hi lo : Byte) : Word := hi ++ lo

/-- The byte of a word that lies at the lower address (R35). -/
def highByte (w : Word) : Byte := w.extractLsb' 8 8

/-- The byte of a word that lies at the higher address (R35). -/
def lowByte (w : Word) : Byte := w.extractLsb' 0 8

/-- Why a run of bytes is no instruction. -/
inductive DecodeError where
  /-- fewer than the 2 bytes every instruction has (R51) -/
  | truncated
  /-- the word matches no row (R59, "unrecognized instruction") -/
  | unrecognized (w : Word)
deriving DecidableEq, Repr

/-- The decoder over bytes in address order: the instruction and the bytes after it, or why there is none. -/
def decode (bytes : List Byte) : Except DecodeError (Instr × List Byte) :=
  match bytes with
  | hi :: lo :: rest =>
    match decodeWord (joinBytes hi lo) with
    | some i => .ok (i, rest)
    | none => .error (.unrecognized (joinBytes hi lo))
  | _ => .error .truncated

/-- The bytes of an instruction in address order (R35, R51). -/
def encodeBytes (i : Instr) : List Byte := [highByte (encode i), lowByte (encode i)]

/-- The instruction word whose low `nbits` bits are those of `w`, every bit above them 0. -/
def tableWord (nbits w : Nat) : Word := BitVec.ofNat 16 (w % 2 ^ nbits)

/-- What the decoder reads from an opcode-table word laid out in memory order. -/
def decodeTableWord (nbits w : Nat) : Option Instr :=
  match decode [highByte (tableWord nbits w), lowByte (tableWord nbits w)] with
  | .ok (i, _) => some i
  | .error _ => none

end Sys2Proof
end

