-- ==== Sys2Proof/Config.lean ====
section
/-! DEFINITION. What is fixed for one machine: the parameters of spec/00_scope.md R5 and R6 and the free values of
spec/93_implementation_defined.md. A parameter the spec leaves open is an argument of the definition that uses it; the
defaults the spec names for `ODD_FETCH` and `FONT` stand in Machine/Ops.lean. -/

namespace Sys2Proof

/-- `MEM_SIZE` (R5): Memory has the addresses 0x000 to 0xFFF. -/
abbrev Config.memSize : Nat := 4096

/-- `PROGRAM_BASE` (R5): the load address of the ROM, and the reset vector (D5). -/
abbrev Config.programBase : Nat := 0x200

/-- `MAX_ROM` (R5): 4096 - 0x200 bytes. -/
abbrev Config.maxRom : Nat := 3584

/-- `STACK_DEPTH` (R5). -/
abbrev Config.stackDepth : Nat := 16

/-- The values of the parameter `ODD_FETCH` (R6, D10): what a fetch at an odd PC does. -/
inductive Config.OddFetch where
  /-- the fetch raises `MisalignedFetch` -/
  | fault
  /-- the fetch reads the two bytes at PC and PC+1 like any other -/
  | read
deriving DecidableEq, Repr

/-- `FONT` (R6, D6): 16 glyphs of 5 bytes, glyph `d` at address `5*d` (spec/20_memory.md R41). -/
abbrev Config.Font := Vector (Vector Byte 5) 16

/-- The 80 bytes of a font in address order. -/
def Config.fontBytes (font : Config.Font) : List Byte :=
  font.toList.flatMap (fun glyph => glyph.toList)

/-- `RAND` (R6, D16; spec/43_alu.md R100): the free byte of the `n`-th draw. Nothing constrains it, so every statement about
a drawn byte holds for every byte. A free value (log entry 4). -/
opaque Config.randByte : Nat → Byte

end Sys2Proof
end

