-- ==== Sys2Proof/Machine/State.lean ====
section
/-! DEFINITION. The state of the machine: the tuple of spec/10_state.md R14, as plain data, and its value after
construction (spec/70_reset_and_hazards.md R134). -/

namespace Sys2Proof.Machine

/-- The seven faults of spec/60_exceptions.md R114. The engine TAKES a fault: the step that raises it answers a NEXT state, in
mode `Halted` with the fault's record (R116), so no step of the model answers the host's fault outcome with one of them
(log entry 5, safe: nothing the hardware does after a fault is left out, because `Halted` is absorbing, R118). -/
inductive Fault where
  /-- Code 1, raised by any step whose fetched word matches no pattern (R67). Safe: the source names it. -/
  | unrecognizedInstruction
  /-- Code 2, raised by 2nnn when the stack holds 16 entries (R24, R81). Safe: a fault where the source leaves it open (D7). -/
  | stackOverflow
  /-- Code 3, raised by 00EE when the stack is empty (R25, R79). Safe (D7). -/
  | stackUnderflow
  /-- Code 4, raised by Dxyn, Fx33, Fx55 and Fx65 on a data address above 0xFFF (R43). Safe (D8). -/
  | memoryOutOfBounds
  /-- Code 5, raised by any step that fetches at PC > 0xFFE (R65). Safe (D9). -/
  | fetchOutOfBounds
  /-- Code 6, raised by any step that fetches at an odd PC with `ODD_FETCH = fault` (R65). Safe (D10). -/
  | misalignedFetch
  /-- Code 7, raised by Ex9E and ExA1 when `V[x] > 0xF` (R108, R109). Safe (D13). -/
  | keyIndexOutOfRange
deriving DecidableEq, Repr

/-- Why a host call has no move (spec/60_exceptions.md R129), or an instruction has no meaning. -/
inductive Refusal where
  /-- Raised by `exec` alone, for an instruction without a meaning. No arm of this model answers it. Safe. -/
  | notModelled (mnemonic : String)
  /-- Raised by `step` while nothing is loaded (R129, D21). Unsafe: a host duty every claim assumes (log entry 8). -/
  | stepBeforeLoad
  /-- Raised by the host's `load` when a ROM is loaded already (R129, D21). Unsafe: a host duty (log entry 8). -/
  | loadTwice
  /-- Raised by the host's `set_key` with an index above 15 (R124, R129, D29). Unsafe: a host duty (log entry 8). -/
  | setKeyIndex
  /-- Raised by the host's `resolve_key` outside `AwaitingKey` (R125, R129, D19). Unsafe: a host duty (log entry 8). -/
  | resolveKeyNotAwaiting
  /-- Raised by the host's `resolve_key` with a value above 15 (R125, R129, D19). Unsafe: a host duty (log entry 8). -/
  | resolveKeyValue
deriving DecidableEq, Repr

/-- The fault record `(code, kind, pc_insn, word, info)` of R115. The code follows from the kind (`faultCode`). -/
structure FaultRecord where
  /-- which of the seven faults -/
  kind : Fault
  /-- the address the step fetched from, or tried to -/
  pcInsn : Word
  /-- the fetched word; none for a fetch fault -/
  word : Option Word
  /-- the column "information recorded" of R114 -/
  info : Word
deriving DecidableEq, Repr

/-- The engine mode (spec/10_state.md R29, R31). The awaiting-key latch is the `x` of `awaitingKey x`. -/
inductive Mode where
  /-- a step executes an instruction -/
  | running
  /-- suspended by Fx0A until the host delivers a key for `V[x]` -/
  | awaitingKey (x : Reg)
  /-- after the fault `f`; nothing executes any more -/
  | halted (f : FaultRecord)
deriving DecidableEq, Repr

/-- Memory: the bytes that differ from the reset contents, as (address, byte) pairs in rising order of address. -/
abbrev Memory := List Host.Cell

/-- The Screen (R27): row `y`, then column `x`; a pixel is 0 or 1. -/
abbrev Screen := Vector (Vector Bool 64) 32

/-- The machine state, "exactly the following tuple" (R14), and the model's own counter of drawn random bytes. -/
structure State where
  /-- Mem, 4096 bytes (R16) -/
  mem : Memory
  /-- V0 to VF (R17) -/
  v : Vector Byte 16
  /-- the index register I (R20) -/
  i : Word
  /-- the program counter PC (R21) -/
  pc : Word
  /-- the call stack, the last element being the top (R23) -/
  stack : List Word
  /-- the Delay Timer DT (R26) -/
  dt : Byte
  /-- the Sound Timer ST (R26) -/
  st : Byte
  /-- the Screen (R27) -/
  screen : Screen
  /-- Key[0] to Key[15], true meaning pressed (R28) -/
  keys : Vector Bool 16
  /-- the engine mode and the awaiting-key latch (R29) -/
  mode : Mode
  /-- the redraw flag (R30) -/
  redraw : Bool
  /-- whether a ROM has been loaded (R31, R135) -/
  loaded : Bool
  /-- THE MODEL'S OWN FIELD, not the spec's: how many random bytes were drawn (R100, D16; log entry 4) -/
  draws : Nat
deriving DecidableEq, Repr

/-- Right after construction (R134), with the spec's defaults for `FONT` and `RESET_PROFILE`: Memory lists nothing, since an
unlisted address reads its reset contents. Every value is R134's (log entries 1 and 2), but for `draws` (log entry 4). -/
def State.reset : State where
  mem := []
  v := Vector.replicate 16 0x00#8
  i := 0x0000#16
  pc := 0x0200#16
  stack := []
  dt := 0x00#8
  st := 0x00#8
  screen := Vector.replicate 32 (Vector.replicate 64 false)
  keys := Vector.replicate 16 false
  mode := .running
  redraw := false
  loaded := false
  draws := 0

end Sys2Proof.Machine
end

