-- ==== Sys2Proof/Machine/Ops.lean ====
section
/-! DEFINITION. The named operations over the state: Memory, registers, the call stack, the screen, fetching an
instruction, taking a fault, and construction. Every read and write of the machine goes through these. -/

/-! ### The spec's defaults of two parameters (spec/00_scope.md R6) -/

namespace Sys2Proof

/-- The default of `ODD_FETCH` that R6 and D10 name. UNVERIFIED (log entry 3): the source gives no rule; `stepWith` takes
either value. -/
def Config.oddFetch : Config.OddFetch := .fault

/-- The default of `FONT`: the conventional font, spec/93_implementation_defined.md G1. PRESUMED (log entry 1): the spec
takes the bytes from general knowledge. -/
def Config.defaultFont : Config.Font :=
  #v[#v[0xF0, 0x90, 0x90, 0x90, 0xF0],
     #v[0x20, 0x60, 0x20, 0x20, 0x70],
     #v[0xF0, 0x10, 0xF0, 0x80, 0xF0],
     #v[0xF0, 0x10, 0xF0, 0x10, 0xF0],
     #v[0x90, 0x90, 0xF0, 0x10, 0x10],
     #v[0xF0, 0x80, 0xF0, 0x10, 0xF0],
     #v[0xF0, 0x80, 0xF0, 0x90, 0xF0],
     #v[0xF0, 0x10, 0x20, 0x40, 0x40],
     #v[0xF0, 0x90, 0xF0, 0x90, 0xF0],
     #v[0xF0, 0x90, 0xF0, 0x10, 0xF0],
     #v[0xF0, 0x90, 0xF0, 0x90, 0x90],
     #v[0xE0, 0x90, 0xE0, 0x90, 0xE0],
     #v[0xF0, 0x80, 0x80, 0x80, 0xF0],
     #v[0xE0, 0x90, 0x90, 0x90, 0xE0],
     #v[0xF0, 0x80, 0xF0, 0x80, 0xF0],
     #v[0xF0, 0x80, 0xF0, 0x80, 0x80]]

end Sys2Proof

namespace Sys2Proof.Machine

/-- How a meaning or a step ends. -/
abbrev Result := Host.Outcome State Fault Refusal

/-! ### Writing one piece of state -/

def State.setMem (s : State) (m : Memory) : State := { s with mem := m }
def State.setV (s : State) (v : Vector Byte 16) : State := { s with v := v }
def State.setI (s : State) (a : Word) : State := { s with i := a }
def State.setPc (s : State) (a : Word) : State := { s with pc := a }
def State.setStack (s : State) (l : List Word) : State := { s with stack := l }
def State.setDt (s : State) (b : Byte) : State := { s with dt := b }
def State.setSt (s : State) (b : Byte) : State := { s with st := b }
def State.setScreen (s : State) (p : Screen) : State := { s with screen := p }
def State.setKeys (s : State) (k : Vector Bool 16) : State := { s with keys := k }
def State.setMode (s : State) (m : Mode) : State := { s with mode := m }
def State.setRedraw (s : State) (b : Bool) : State := { s with redraw := b }
def State.setLoaded (s : State) (b : Bool) : State := { s with loaded := b }
def State.setDraws (s : State) (n : Nat) : State := { s with draws := n }

/-! ### General registers (spec/00_scope.md R9, spec/10_state.md R17) -/

/-- `V[r]`. -/
def State.reg (s : State) (r : Reg) : Byte := s.v[r.toNat]'r.isLt

/-- `V[r] <- b`. No register is hardwired or read-only (R17). -/
def State.setReg (s : State) (r : Reg) (b : Byte) : State := s.setV (s.v.set r.toNat b r.isLt)

/-- `V[r] <- bytes[0]; V[r+1] <- bytes[1]; …` for the registers the list reaches. -/
def State.setRegs (s : State) (r : Nat) (bytes : List Byte) : State :=
  match bytes with
  | [] => s
  | b :: rest => State.setRegs (s.setReg (BitVec.ofNat 4 r) b) (r + 1) rest

/-- `V[0]` to `V[x]`, in order. -/
def State.regsUpTo (s : State) (x : Reg) : List Byte :=
  (List.range (x.toNat + 1)).map (fun k => s.reg (BitVec.ofNat 4 k))

/-! ### Memory (spec/20_memory.md) -/

/-- What an address no entry lists reads as: the reset contents of spec/70_reset_and_hazards.md R134 under the default `FONT`
and `RESET_PROFILE` (log entry 1). -/
def Memory.initial (a : Nat) : Byte := (Config.fontBytes Config.defaultFont).getD a 0x00#8

/-- `MemRead(a, 1)`. -/
def Memory.read (m : Memory) (a : Nat) : Byte :=
  match m with
  | [] => Memory.initial a
  | (b, u) :: rest => if a = b then u else Memory.read rest a

/-- The memory without an entry for `a`, which then reads its reset contents. -/
def Memory.erase (m : Memory) (a : Nat) : Memory := m.filter (fun c => c.1 != a)

/-- The memory with the entry `(a, u)`, at its place in the rising order of addresses. -/
def Memory.insert (m : Memory) (a : Nat) (u : Byte) : Memory :=
  match m with
  | [] => [(a, u)]
  | (b, w) :: rest =>
    if a < b then (a, u) :: (b, w) :: rest
    else if a = b then (a, u) :: rest
    else (b, w) :: Memory.insert rest a u

/-- `MemWrite(a, 1, u)`. It keeps the canonical form: rising addresses, and no entry equal to the reset contents. -/
def Memory.write (m : Memory) (a : Nat) (u : Byte) : Memory :=
  if u = Memory.initial a then m.erase a else m.insert a u

/-- The `n` bytes from `base` up, in ascending order (R38). -/
def Memory.readBytes (m : Memory) (base n : Nat) : List Byte := (List.range n).map (fun k => m.read (base + k))

/-- Writes the bytes to `base`, `base + 1`, … in ascending order (R38). -/
def Memory.writeBytes (m : Memory) (base : Nat) (bytes : List Byte) : Memory :=
  match bytes with
  | [] => m
  | b :: rest => Memory.writeBytes (m.write base b) (base + 1) rest

/-- The canonical form from address `lo` up: strictly rising addresses of Memory, no entry equal to the reset contents. -/
def Memory.wfFrom (lo : Nat) (m : Memory) : Bool :=
  match m with
  | [] => true
  | (a, u) :: rest => decide (lo ≤ a) && decide (a < Config.memSize) && u != Memory.initial a && Memory.wfFrom (a + 1) rest

/-- The canonical form of Memory; equal memories are then equal data. -/
def Memory.wf (m : Memory) : Bool := Memory.wfFrom 0 m

/-- `CheckRange(base, count)` of R43, for `count ≥ 1`: none when every address `base + k` exists, else the first address above
0xFFF, `max(base, 0x1000)`. The sum is computed without wrap. -/
def checkRange (base : Word) (count : Nat) : Option Word :=
  if base.toNat + count - 1 > 0xFFF then some (BitVec.ofNat 16 (max base.toNat 0x1000)) else none

/-! ### Taking a fault (spec/60_exceptions.md R115, R116)

There is no vector, no handler and nothing is saved elsewhere; there is no return from a fault (R118). -/

/-- The numeric code of R114. -/
def faultCode (f : Fault) : Nat :=
  match f with
  | .unrecognizedInstruction => 1
  | .stackOverflow => 2
  | .stackUnderflow => 3
  | .memoryOutOfBounds => 4
  | .fetchOutOfBounds => 5
  | .misalignedFetch => 6
  | .keyIndexOutOfRange => 7

/-- `Mode <- Halted(f)`, the whole effect of a fault (R116). -/
def State.halt (s : State) (f : FaultRecord) : State := s.setMode (.halted f)

/-- `PC_insn`, the address of the executing instruction: the base advance has happened (R64, R66). -/
def State.insnAddr (s : State) : Word := s.pc - 2

/-- A fault after the base advance, by the instruction or the illegal word `word` (R116): PC keeps `PC_insn + 2`. -/
def takeFault (s : State) (kind : Fault) (word info : Word) : Result :=
  .next (s.halt { kind := kind, pcInsn := s.insnAddr, word := some word, info := info })

/-- A fetch fault, before the base advance (R65, R116): PC is unchanged and there is no word. -/
def takeFetchFault (s : State) (kind : Fault) : Result :=
  .next (s.halt { kind := kind, pcInsn := s.pc, word := none, info := s.pc })

/-- The memory-range check of Dxyn, Fx33, Fx55 and Fx65, before the first read or write (R43, R72): the fault, or `ok`. -/
def rangeChecked (s : State) (count : Nat) (word : Word) (ok : State) : Result :=
  match checkRange s.i count with
  | some a => takeFault s .memoryOutOfBounds word a
  | none => .next ok

/-! ### Call stack (spec/10_state.md R23 to R25) -/

/-- `Push(v)`, then `ok` of the state after it; `StackOverflow(PC_insn)` when the stack holds 16 entries (R24). -/
def pushThen (s : State) (v : Word) (word : Word) (ok : State → State) : Result :=
  if s.stack.length < Config.stackDepth then .next (ok (s.setStack (s.stack ++ [v])))
  else takeFault s .stackOverflow word s.insnAddr

/-- `Pop()`, then `ok` of the popped value and the state after it; `StackUnderflow(PC_insn)` when the stack is empty (R25). -/
def popThen (s : State) (word : Word) (ok : Word → State → State) : Result :=
  match s.stack.getLast? with
  | none => takeFault s .stackUnderflow word s.insnAddr
  | some v => .next (ok v (s.setStack s.stack.dropLast))

/-! ### Screen (spec/10_state.md R27) -/

/-- `Screen[y][x]`. -/
def Screen.pixel (p : Screen) (x : Fin 64) (y : Fin 32) : Bool := p[y][x]

/-- `Screen[y][x] <- b`. -/
def Screen.setPixel (p : Screen) (x : Fin 64) (y : Fin 32) (b : Bool) : Screen := p.set y (p[y].set x b)

/-- The Screen with every pixel 0. -/
def Screen.blank : Screen := Vector.replicate 32 (Vector.replicate 64 false)

/-! ### Fetch, base advance, skip (spec/40_step_cycle.md R65, R66, R73) -/

/-- `FetchChecked(pc)` of R65: the range first, then the alignment under `ODD_FETCH`, then the big-endian pair of bytes. -/
def fetchChecked (odd : Config.OddFetch) (s : State) : Except Fault Word :=
  if s.pc.toNat > 0xFFE then .error .fetchOutOfBounds
  else if s.pc.getLsbD 0 = true ∧ odd = .fault then .error .misalignedFetch
  else .ok (joinBytes (s.mem.read s.pc.toNat) (s.mem.read (s.pc.toNat + 1)))

/-- The base advance: `PC <- trunc_16(PC + 2)` (R66). -/
def State.advance (s : State) : State := s.setPc (s.pc + 2)

/-- `Skip(c)` of R73: another 2 on top of the base advance. -/
def State.skip (s : State) (c : Bool) : State := if c then s.setPc (s.pc + 2) else s

/-- An illegal word (R67): `UnrecognizedInstruction(w)`, after the base advance. -/
def takeIllegal (s : State) (w : Word) : Result := takeFault s .unrecognizedInstruction w w

/-! ### Construction and the loader (spec/70_reset_and_hazards.md) -/

/-- The parameter `RESET_PROFILE` (spec/00_scope.md R6, D4): any initial values of V, I, DT, ST and the non-font memory. `mem`
holds the bytes from 0x050 up; bytes past its end are 0. -/
structure ResetProfile where
  v : Vector Byte 16 := Vector.replicate 16 0x00#8
  i : Word := 0x0000#16
  dt : Byte := 0x00#8
  st : Byte := 0x00#8
  mem : List Byte := []
deriving DecidableEq, Repr

/-- Construction (R133, R134): the font is copied in, and the profile gives the rest. `State.reset` is this under the spec's
defaults. -/
def construct (font : Config.Font) (profile : ResetProfile) : State where
  mem := (Memory.writeBytes [] 0 (Config.fontBytes font)).writeBytes 0x050 (profile.mem.take (Config.memSize - 0x050))
  v := profile.v
  i := profile.i
  pc := 0x0200#16
  stack := []
  dt := profile.dt
  st := profile.st
  screen := Screen.blank
  keys := Vector.replicate 16 false
  mode := .running
  redraw := false
  loaded := false
  draws := 0

/-- Copies a ROM into Memory from 0x200 and marks the machine loaded (R135). -/
def State.loadRom (s : State) (bytes : List Byte) : State :=
  (s.setMem (s.mem.writeBytes Config.programBase bytes)).setLoaded true

/-- Whether a fetch at `pc` reads a word at all (R65). -/
def fetchable (odd : Config.OddFetch) (pc : Word) : Bool := pc.toNat ≤ 0xFFE && !(pc.getLsbD 0 && odd == .fault)

/-- The state in which the next step fetches the word `w` and executes it: a machine runs an instruction only when it is loaded
and `Running` (R64), so both are set; the word goes where PC points, and PC goes to the reset vector where no fetch is possible
(log entry 7). -/
def placeFetchWord (odd : Config.OddFetch) (s : State) (w : Word) : State :=
  let pc := if fetchable odd s.pc then s.pc else 0x0200#16
  (((s.setMem (s.mem.writeBytes pc.toNat [highByte w, lowByte w])).setPc pc).setMode .running).setLoaded true

end Sys2Proof.Machine
end

