-- ==== Sys2Proof/Machine/Operands.lean ====
section
/-! DEFINITION. How operands are assembled (spec/30_encoding.md R54) and read (spec/40_step_cycle.md R70). No immediate is
sign-extended, scaled or shifted. -/

namespace Sys2Proof.Machine

/-- `zext_16(nnn)`: the 12-bit address as it is written to PC or I, or added to V0. -/
def addrOperand (nnn : Addr) : Word := nnn.setWidth 16

/-- `zext_16(V[x])`, for Fx1E, Fx29 and Bnnn. -/
def wideReg (s : State) (r : Reg) : Word := (s.reg r).setWidth 16

/-- The key a byte names: Key has 16 flags, so a value above 0xF names none (spec/45_input_timers.md R108). -/
def keyOperand (k : Byte) : Option (Fin 16) := if h : k.toNat < 16 then some ⟨k.toNat, h⟩ else none

/-- `Key[k]`. -/
def State.key (s : State) (k : Fin 16) : Bool := s.keys[k]

/-- The three decimal digits of a byte: hundreds, tens, ones (spec/44_index_memory.md R105). -/
def decimalDigits (b : Byte) : List Byte :=
  [BitVec.ofNat 8 (b.toNat / 100), BitVec.ofNat 8 (b.toNat / 10 % 10), BitVec.ofNat 8 (b.toNat % 10)]

/-- Bit `col` of a sprite row counted from the left: bit 7 is column 0 (spec/41_display.md R76, D14; log entry 15). -/
def spriteBit (b : Byte) (col : Nat) : Bool := b.getLsbD (7 - col)

/-- The screen column of a sprite's column `col` (R76): wrap-around modulo 64. -/
def screenColumn (vx : Byte) (col : Nat) : Fin 64 := Fin.ofNat 64 (vx.toNat + col)

/-- The screen row of a sprite's row `row` (R76): wrap-around modulo 32. -/
def screenRow (vy : Byte) (row : Nat) : Fin 32 := Fin.ofNat 32 (vy.toNat + row)

end Sys2Proof.Machine
end

