-- ==== Sys2Proof/Machine/Flags.lean ====
section
/-! DEFINITION. What VF receives as a flag (spec/10_state.md R19, spec/43_alu.md R87, R88). -/

namespace Sys2Proof.Machine

/-- A flag as the byte written to VF: 1 or 0. -/
def flagByte (c : Bool) : Byte := if c then 0x01#8 else 0x00#8

/-- 8xy4 (R95): the carry out of bit 7, `a + b > 255`. -/
def carryFlag (a b : Byte) : Byte := flagByte (decide (a.toNat + b.toNat > 255))

/-- 8xy5 and 8xy7 (R96, R98): NOT borrow, a STRICT comparison: 1 iff minuend > subtrahend. -/
def notBorrowFlag (minuend subtrahend : Byte) : Byte := flagByte (decide (minuend.toNat > subtrahend.toNat))

/-- 8xy6 (R97): the bit a right shift by one shifts out, bit 0. -/
def shiftRightFlag (a : Byte) : Byte := flagByte (a.getLsbD 0)

/-- 8xyE (R99): the bit a left shift by one shifts out, bit 7. -/
def shiftLeftFlag (a : Byte) : Byte := flagByte (a.getLsbD 7)

/-- The order of R88 and R70: the flag is written to VF first and the result to `V[d]` second, so with `d = 0xF` VF ends
holding the result. -/
def State.setFlagThen (s : State) (flag : Byte) (d : Reg) (result : Byte) : State := (s.setReg Reg.vf flag).setReg d result

end Sys2Proof.Machine
end

