-- ==== Sys2Proof/Machine/Alu.lean ====
section
/-! DEFINITION. Register and arithmetic instructions (spec/43_alu.md). All operands are read before any write
(spec/40_step_cycle.md R70), and every result is modulo 256 (R87). -/

namespace Sys2Proof.Machine

/-- `6xkk` LD Vx, kk (R89). -/
def execLdImm (x : Reg) (kk : Byte) (s : State) : Result := .next (s.setReg x kk)

/-- `7xkk` ADD Vx, kk (R90): wraps, and writes no flag. -/
def execAddImm (x : Reg) (kk : Byte) (s : State) : Result := .next (s.setReg x (s.reg x + kk))

/-- `8xy0` LD Vx, Vy (R91). -/
def execLdReg (x y : Reg) (s : State) : Result := .next (s.setReg x (s.reg y))

/-- `8xy1` OR Vx, Vy (R92); VF is not reset (D3). -/
def execOr (x y : Reg) (s : State) : Result := .next (s.setReg x (s.reg x ||| s.reg y))

/-- `8xy2` AND Vx, Vy (R93); VF is not reset (D3). -/
def execAnd (x y : Reg) (s : State) : Result := .next (s.setReg x (s.reg x &&& s.reg y))

/-- `8xy3` XOR Vx, Vy (R94); VF is not reset (D3). -/
def execXor (x y : Reg) (s : State) : Result := .next (s.setReg x (s.reg x ^^^ s.reg y))

/-- `8xy4` ADD Vx, Vy (R95): the carry into VF, then the sum into `V[x]`. -/
def execAddReg (x y : Reg) (s : State) : Result :=
  .next (s.setFlagThen (carryFlag (s.reg x) (s.reg y)) x (s.reg x + s.reg y))

/-- `8xy5` SUB Vx, Vy (R96): `vx > vy` into VF, then the difference into `V[x]`. -/
def execSub (x y : Reg) (s : State) : Result :=
  .next (s.setFlagThen (notBorrowFlag (s.reg x) (s.reg y)) x (s.reg x - s.reg y))

/-- `8xy6` SHR Vx (R97): bit 0 into VF, then the logical shift into `V[x]`; `V[y]` is not read (D28). -/
def execShr (x _y : Reg) (s : State) : Result :=
  .next (s.setFlagThen (shiftRightFlag (s.reg x)) x (s.reg x >>> 1))

/-- `8xy7` SUBN (R98): `vy > vx` into VF, then the difference into **`V[y]`**, as the source's table has it (D28). -/
def execSubn (x y : Reg) (s : State) : Result :=
  .next (s.setFlagThen (notBorrowFlag (s.reg y) (s.reg x)) y (s.reg y - s.reg x))

/-- `8xyE` SHL Vx (R99): bit 7 into VF, then the shift into `V[x]`; `V[y]` is not read (D28). -/
def execShl (x _y : Reg) (s : State) : Result :=
  .next (s.setFlagThen (shiftLeftFlag (s.reg x)) x (s.reg x <<< 1))

/-- `Cxkk` RND Vx, kk (R100): a free byte, masked by `kk`. Each execution makes its own draw (D16; log entry 4). -/
def execRnd (x : Reg) (kk : Byte) (s : State) : Result :=
  .next ((s.setDraws (s.draws + 1)).setReg x (Config.randByte s.draws &&& kk))

end Sys2Proof.Machine
end

