-- ==== Sys2Proof/Machine/ControlFlow.lean ====
section
/-! DEFINITION. Jumps, call and return, and the conditional skips (spec/42_control_flow.md). PC already holds
`PC_insn + 2` when a meaning starts (spec/40_step_cycle.md R66). Targets are written unmasked and unchecked (R78). -/

namespace Sys2Proof.Machine

/-- `00EE` RET (R79): `PC <- Pop()`. -/
def execRet (s : State) : Result := popThen s (encode .ret) (fun v t => t.setPc v)

/-- `1nnn` JP nnn (R80). -/
def execJp (nnn : Addr) (s : State) : Result := .next (s.setPc (addrOperand nnn))

/-- `2nnn` CALL nnn (R81): the advanced PC is pushed. -/
def execCall (nnn : Addr) (s : State) : Result :=
  pushThen s s.pc (encode (.call nnn)) (fun t => t.setPc (addrOperand nnn))

/-- `3xkk` SE Vx, kk (R82). -/
def execSeImm (x : Reg) (kk : Byte) (s : State) : Result := .next (s.skip (s.reg x == kk))

/-- `4xkk` SNE Vx, kk (R83). -/
def execSneImm (x : Reg) (kk : Byte) (s : State) : Result := .next (s.skip (s.reg x != kk))

/-- `5xy0` SE Vx, Vy (R84). -/
def execSeReg (x y : Reg) (s : State) : Result := .next (s.skip (s.reg x == s.reg y))

/-- `9xy0` SNE Vx, Vy (R85). -/
def execSneReg (x y : Reg) (s : State) : Result := .next (s.skip (s.reg x != s.reg y))

/-- `Bnnn` JP V0, nnn (R86): always V0, and the sum is not masked to 12 bits (D12). -/
def execJpV0 (nnn : Addr) (s : State) : Result := .next (s.setPc (wideReg s 0x0 + addrOperand nnn))

end Sys2Proof.Machine
end

