-- ==== Sys2Proof/Machine/Display.lean ====
section
/-! DEFINITION. The display blit controller: 00E0 and Dxyn (spec/41_display.md). -/

namespace Sys2Proof.Machine

/-- `00E0` CLS (R75): every pixel 0, and the redraw flag set whether or not a pixel changed. -/
def execCls (s : State) : Result := .next ((s.setScreen Screen.blank).setRedraw true)

/-- A draw under way: the Screen so far, and whether a lit pixel has been turned off. -/
structure Blit where
  screen : Screen
  collision : Bool
deriving DecidableEq, Repr

/-- One sprite bit XORed onto the Screen (R76): a 0 bit leaves its pixel unchanged. -/
def blitBit (vx vy b : Byte) (row : Nat) (d : Blit) (col : Nat) : Blit :=
  if spriteBit b col then
    let px := screenColumn vx col
    let py := screenRow vy row
    { screen := d.screen.setPixel px py (!d.screen.pixel px py), collision := d.collision || d.screen.pixel px py }
  else d

/-- One sprite row: its 8 columns from the left (R76). -/
def blitRow (vx vy b : Byte) (row : Nat) (d : Blit) : Blit := (List.range 8).foldl (blitBit vx vy b row) d

/-- The sprite's rows from `row` down the list (R76). -/
def blitRows (vx vy : Byte) (row : Nat) (bytes : List Byte) (d : Blit) : Blit :=
  match bytes with
  | [] => d
  | b :: rest => blitRows vx vy (row + 1) rest (blitRow vx vy b row d)

/-- The state after a draw of `bytes` at `(vx, vy)`: the Screen, VF last, the redraw flag (R76). -/
def drawSprite (s : State) (vx vy : Byte) (bytes : List Byte) : State :=
  let d := blitRows vx vy 0 bytes { screen := s.screen, collision := false }
  ((s.setScreen d.screen).setReg Reg.vf (flagByte d.collision)).setRedraw true

/-- `Dxyn` DRW Vx, Vy, n (R76). With `n = 0` no byte is read, I is not checked, VF becomes 0 and the redraw flag is set (D15). -/
def execDrw (x y : Reg) (n : Nibble) (s : State) : Result :=
  let drawn := drawSprite s (s.reg x) (s.reg y) (s.mem.readBytes s.i.toNat n.toNat)
  if n = 0x0#4 then .next drawn else rangeChecked s n.toNat (encode (.drw x y n)) drawn

end Sys2Proof.Machine
end

