-- ==== Sys2Proof/Machine/IndexMemory.lean ====
section
/-! DEFINITION. The instructions that set I, and the loads and stores through I (spec/44_index_memory.md). Every data
address is `I + k` without wrap, the whole range is checked before the first access, and none of the loads and stores writes I
(R101). -/

namespace Sys2Proof.Machine

/-- `Annn` LD I, nnn (R102). -/
def execLdI (nnn : Addr) (s : State) : Result := .next (s.setI (addrOperand nnn))

/-- `Fx1E` ADD I, Vx (R103): wraps modulo 65536, no mask to 12 bits, VF not written (D11). -/
def execAddI (x : Reg) (s : State) : Result := .next (s.setI (s.i + wideReg s x))

/-- `Fx29` LD F, Vx (R104): `I := 5 * Vx`, Vx not masked to its low nibble (D11). -/
def execLdF (x : Reg) (s : State) : Result := .next (s.setI (5#16 * wideReg s x))

/-- `Fx33` LD B, Vx (R105): hundreds, tens and ones at I, I+1 and I+2. -/
def execLdB (x : Reg) (s : State) : Result :=
  rangeChecked s 3 (encode (.ldB x)) (s.setMem (s.mem.writeBytes s.i.toNat (decimalDigits (s.reg x))))

/-- `Fx55` LD [I], Vx (R106): V0 to Vx into the bytes from I; I is not changed (D3). -/
def execLdMemI (x : Reg) (s : State) : Result :=
  rangeChecked s (x.toNat + 1) (encode (.ldMemI x)) (s.setMem (s.mem.writeBytes s.i.toNat (s.regsUpTo x)))

/-- `Fx65` LD Vx, [I] (R107): V0 to Vx from the bytes from I; I is not changed (D3). -/
def execLdIMem (x : Reg) (s : State) : Result :=
  rangeChecked s (x.toNat + 1) (encode (.ldIMem x)) (s.setRegs 0 (s.mem.readBytes s.i.toNat (x.toNat + 1)))

end Sys2Proof.Machine
end

