-- ==== Sys2Proof/Machine/InputTimers.lean ====
section
/-! DEFINITION. Keypad and timer instructions (spec/45_input_timers.md). -/

namespace Sys2Proof.Machine

/-- The key test of Ex9E and ExA1: `KeyIndexOutOfRange(V[x])` when no key has that number (R108, D13), else a skip when the
key's state is `wanted`. -/
def keySkip (s : State) (x : Reg) (wanted : Bool) (word : Word) : Result :=
  match keyOperand (s.reg x) with
  | none => takeFault s .keyIndexOutOfRange word (wideReg s x)
  | some k => .next (s.skip (s.key k == wanted))

/-- `Ex9E` SKP Vx (R108): skip if the key is pressed. -/
def execSkp (x : Reg) (s : State) : Result := keySkip s x true (encode (.skp x))

/-- `ExA1` SKNP Vx (R109): skip if the key is not pressed. -/
def execSknp (x : Reg) (s : State) : Result := keySkip s x false (encode (.sknp x))

/-- `Fx07` LD Vx, DT (R110). -/
def execLdVxDt (x : Reg) (s : State) : Result := .next (s.setReg x s.dt)

/-- `Fx0A` LD Vx, K (R111): the mode becomes `AwaitingKey(x)`; `V[x]` is written later, by the host's `resolve_key`. -/
def execLdVxK (x : Reg) (s : State) : Result := .next (s.setMode (.awaitingKey x))

/-- `Fx15` LD DT, Vx (R112). -/
def execLdDt (x : Reg) (s : State) : Result := .next (s.setDt (s.reg x))

/-- `Fx18` LD ST, Vx (R113). -/
def execLdSt (x : Reg) (s : State) : Result := .next (s.setSt (s.reg x))

end Sys2Proof.Machine
end

