-- ==== Sys2Proof/Machine/Step.lean ====
section
/-! DEFINITION. One call of `step()` (spec/40_step_cycle.md R64), and the placing of an instruction where it is fetched. -/

namespace Sys2Proof.Machine

/-- One step, for either value of `ODD_FETCH` (R64 to R69): refused before `load` (R129); no change while awaiting a key (R68)
or halted (R69); else fetch, base advance, decode, execute, and the faults in the order of R117. -/
def stepWith (odd : Config.OddFetch) (s : State) : Host.Outcome State Fault Refusal :=
  if s.loaded then
    match s.mode with
    | .halted _ => .next s
    | .awaitingKey _ => .next s
    | .running =>
      match fetchChecked odd s with
      | .error f => takeFetchFault s f
      | .ok w =>
        match decodeWord w with
        | none => takeIllegal s.advance w
        | some i => exec i s.advance
  else .refused .stepBeforeLoad

/-- One step under the spec's default `ODD_FETCH = fault`. -/
def step (s : State) : Host.Outcome State Fault Refusal := stepWith Config.oddFetch s

/-- The state with the opcode-table word `w` of `nbits` bits where the next step fetches and runs it (log entry 7). -/
def State.withFetchWord (s : State) (nbits w : Nat) : State := placeFetchWord Config.oddFetch s (tableWord nbits w)

end Sys2Proof.Machine
end

