-- ==== Sys2Proof/Machine/HostInterface.lean ====
section
/-! DEFINITION. The host interface (spec/60_exceptions.md R121 to R129, spec/70_reset_and_hazards.md R135): every operation
the outside world can perform, each one atomic, and the total order of calls a host chooses (R128). -/

namespace Sys2Proof.Machine

/-- The operations of R127, "exactly these". -/
inductive HostOp where
  /-- `load(bytes)`, R135 -/
  | load (bytes : List Byte)
  /-- `step()`, R64 -/
  | step
  /-- `tick_timers()`, R121 -/
  | tickTimers
  /-- `set_key(k, pressed)`, R124 -/
  | setKey (k : Nat) (pressed : Bool)
  /-- `read_screen()`, R77 -/
  | readScreen
  /-- `read_redraw_flag()`, R77 -/
  | readRedrawFlag
  /-- `clear_redraw_flag()`, R77 -/
  | clearRedrawFlag
  /-- `is_awaiting_key()`, R126 -/
  | isAwaitingKey
  /-- `resolve_key(v)`, R125 -/
  | resolveKey (v : Nat)
  /-- a read of a general register, R34 -/
  | readReg (r : Reg)
  /-- a read of I, R34 -/
  | readI
  /-- a read of PC, R34 -/
  | readPc
  /-- a read of DT, R34 -/
  | readDt
  /-- a read of ST, R34 -/
  | readSt
  /-- a read of a byte of Memory, R34; an address of Memory has 12 bits (R32) -/
  | readMem (a : Addr)
deriving DecidableEq, Repr

/-- What an operation returns (the column "returns" of R127). -/
inductive Reply where
  /-- nothing -/
  | nothing
  /-- success of `load` -/
  | success
  /-- `LoadTooLarge` of `load` (R135) -/
  | loadTooLarge
  /-- the fault record a `step` returns (R116) -/
  | faultRecord (f : FaultRecord)
  /-- the 64×32 byte grid in row-major order, each byte 0 or 1 (R27, R77) -/
  | grid (pixels : List Byte)
  /-- a boolean -/
  | flag (b : Bool)
  /-- `Some(x)` or `None` (R126) -/
  | latch (x : Option Reg)
  /-- the value of an 8-bit register or of a byte -/
  | byte (b : Byte)
  /-- the value of a 16-bit register -/
  | word (w : Word)
deriving DecidableEq, Repr

/-- How a host call ends: the state and the reply, or the refusal. -/
abbrev HostResult := Host.Outcome (State × Reply) Fault Refusal

/-- Whether the engine is halted; then "the operations that would write change nothing" (R127, D17). -/
def State.isHalted (s : State) : Bool :=
  match s.mode with
  | .halted _ => true
  | _ => false

/-- One timer tick (R121): down by one while above 0, never negative. -/
def tickDown (b : Byte) : Byte := if b.toNat > 0 then b - 1 else b

/-- `tick_timers()` (R121). -/
def tickTimers (s : State) : State :=
  if s.isHalted then s else (s.setDt (tickDown s.dt)).setSt (tickDown s.st)

/-- `set_key(k, pressed)` (R124, R129): an index above 15 is refused; nothing changes in `Halted`. -/
def setKey (k : Nat) (pressed : Bool) (s : State) : HostResult :=
  if h : k < 16 then
    .next (if s.isHalted then s else s.setKeys (s.keys.set k pressed h), .nothing)
  else .refused .setKeyIndex

/-- `resolve_key(v)` (R125, R129): only while awaiting, and only 0 to 15. -/
def resolveKey (v : Nat) (s : State) : HostResult :=
  match s.mode with
  | .awaitingKey x =>
    if v ≤ 15 then .next ((s.setReg x (BitVec.ofNat 8 v)).setMode .running, .nothing) else .refused .resolveKeyValue
  | _ => .refused .resolveKeyNotAwaiting

/-- `load(bytes)` (R135): all or nothing, and once only (D21). -/
def load (bytes : List Byte) (s : State) : HostResult :=
  if s.loaded then .refused .loadTwice
  else if bytes.length > Config.maxRom then .next (s, .loadTooLarge)
  else .next (s.loadRom bytes, .success)

/-- `clear_redraw_flag()` (R77, R127). -/
def clearRedrawFlag (s : State) : State := if s.isHalted then s else s.setRedraw false

/-- `is_awaiting_key()` (R126). -/
def isAwaitingKey (s : State) : Option Reg :=
  match s.mode with
  | .awaitingKey x => some x
  | _ => none

/-- `read_screen()` (R77): element `y*64 + x` is the pixel at column `x` of row `y` (R27). -/
def readScreen (s : State) : List Byte :=
  s.screen.toList.flatMap (fun row => row.toList.map flagByte)

/-- The tone signal: on exactly while ST ≠ 0 (R123). -/
def toneOn (s : State) : Bool := s.st != 0

/-- What a call of `step` returns: the record of the fault it raised, or nothing (R116, R127). -/
def stepReply (s t : State) : Reply :=
  match s.mode, t.mode with
  | .running, .halted f => .faultRecord f
  | _, _ => .nothing

/-- `step()` as the host calls it, for either value of `ODD_FETCH`. -/
def hostStep (odd : Config.OddFetch) (s : State) : HostResult :=
  match stepWith odd s with
  | .next t => .next (t, stepReply s t)
  | .fault f => .fault f
  | .refused r => .refused r

/-- One call of the host (R127). -/
def hostCall (odd : Config.OddFetch) (op : HostOp) (s : State) : HostResult :=
  match op with
  | .load bytes => load bytes s
  | .step => hostStep odd s
  | .tickTimers => .next (tickTimers s, .nothing)
  | .setKey k pressed => setKey k pressed s
  | .readScreen => .next (s, .grid (readScreen s))
  | .readRedrawFlag => .next (s, .flag s.redraw)
  | .clearRedrawFlag => .next (clearRedrawFlag s, .nothing)
  | .isAwaitingKey => .next (s, .latch (isAwaitingKey s))
  | .resolveKey v => resolveKey v s
  | .readReg r => .next (s, .byte (s.reg r))
  | .readI => .next (s, .word s.i)
  | .readPc => .next (s, .word s.pc)
  | .readDt => .next (s, .byte s.dt)
  | .readSt => .next (s, .byte s.st)
  | .readMem a => .next (s, .byte (s.mem.read a.toNat))

/-- A host's whole session: its calls in the total order it chose (R128), stopping at the first refusal. -/
def hostRun (odd : Config.OddFetch) (ops : List HostOp) (s : State) : Result :=
  match ops with
  | [] => .next s
  | op :: rest =>
    match hostCall odd op s with
    | .next (t, _) => hostRun odd rest t
    | .fault f => .fault f
    | .refused r => .refused r

/-- The launch state of a ROM (spec/70_reset_and_hazards.md R136): construction and one successful `load`. -/
def launch (font : Config.Font) (profile : ResetProfile) (rom : List Byte) : State := (construct font profile).loadRom rom

end Sys2Proof.Machine
end

