-- ==== Sys2Proof/Safety.lean ====
section
/-! DEFINITION. The terms claims are stated in: the pieces of state and what "unchanged" means (spec/40_step_cycle.md R71),
what each instruction may write (the "Writes" lines of files 41 to 45), the machine's invariant, and how a run ends
(spec/70_reset_and_hazards.md R138). -/

namespace Sys2Proof.Machine

/-- The pieces of state of spec/10_state.md R14, each byte, register, pixel and key on its own; `draws` is the model's own. -/
inductive Piece where
  | byte (a : Nat)
  | reg (r : Reg)
  | i
  | pc
  | stack
  | dt
  | st
  | pixel (x : Fin 64) (y : Fin 32)
  | key (k : Fin 16)
  | mode
  | redraw
  | loaded
  | draws
deriving DecidableEq, Repr

/-- The piece holds the same value in both states. -/
def samePiece (p : Piece) (s t : State) : Prop :=
  match p with
  | .byte a => t.mem.read a = s.mem.read a
  | .reg r => t.reg r = s.reg r
  | .i => t.i = s.i
  | .pc => t.pc = s.pc
  | .stack => t.stack = s.stack
  | .dt => t.dt = s.dt
  | .st => t.st = s.st
  | .pixel x y => t.screen.pixel x y = s.screen.pixel x y
  | .key k => t.key k = s.key k
  | .mode => t.mode = s.mode
  | .redraw => t.redraw = s.redraw
  | .loaded => t.loaded = s.loaded
  | .draws => t.draws = s.draws

/-- Going from `s` to `t`, every piece of state outside `w` keeps its value: EVERY byte of Memory, register, pixel, key and
control bit that `w` does not name. -/
def OnlyWrites (w : Piece → Prop) (s t : State) : Prop := ∀ p, ¬ w p → samePiece p s t

/-- The sprite of a `Dxyn` executed in `s` has a 1-bit at the pixel (spec/41_display.md R76): some row `row < n` and column
`col < 8` with bit `7 - col` of the byte at `I + row` set, at `((Vx + col) mod 64, (Vy + row) mod 32)`. -/
def SpriteLandsOn (s : State) (x y : Reg) (n : Nibble) (px : Fin 64) (py : Fin 32) : Prop :=
  ∃ row col : Nat, row < n.toNat ∧ col < 8 ∧ (s.mem.read (s.i.toNat + row)).getLsbD (7 - col) = true ∧
    px.val = ((s.reg x).toNat + col) % 64 ∧ py.val = ((s.reg y).toNat + row) % 32

/-- What an instruction may write when it does not fault: the "Writes" line of its rule. The base advance of PC is made
before the instruction executes. Two arms rest on the model's log: `Cxkk` also advances `draws`, the model's own counter of
random bytes (log entry 4), and `Dxyn` writes the pixels under the sprite's 1-bits in the bit order of log entry 15. -/
def mayWrite (i : Instr) (s : State) (p : Piece) : Prop :=
  match i with
  | .cls => (∃ x y, p = .pixel x y) ∨ p = .redraw
  | .ret => p = .pc ∨ p = .stack
  | .jp _ => p = .pc
  | .call _ => p = .stack ∨ p = .pc
  | .seImm _ _ => p = .pc
  | .sneImm _ _ => p = .pc
  | .seReg _ _ => p = .pc
  | .ldImm x _ => p = .reg x
  | .addImm x _ => p = .reg x
  | .ldReg x _ => p = .reg x
  | .or x _ => p = .reg x
  | .and x _ => p = .reg x
  | .xor x _ => p = .reg x
  | .addReg x _ => p = .reg 0xF ∨ p = .reg x
  | .sub x _ => p = .reg 0xF ∨ p = .reg x
  | .shr x _ => p = .reg 0xF ∨ p = .reg x
  | .subn _ y => p = .reg 0xF ∨ p = .reg y
  | .shl x _ => p = .reg 0xF ∨ p = .reg x
  | .sneReg _ _ => p = .pc
  | .ldI _ => p = .i
  | .jpV0 _ => p = .pc
  | .rnd x _ => p = .reg x ∨ p = .draws
  | .drw x y n => (∃ px py, SpriteLandsOn s x y n px py ∧ p = .pixel px py) ∨ p = .reg 0xF ∨ p = .redraw
  | .skp _ => p = .pc
  | .sknp _ => p = .pc
  | .ldVxDt x => p = .reg x
  | .ldVxK _ => p = .mode
  | .ldDt _ => p = .dt
  | .ldSt _ => p = .st
  | .addI _ => p = .i
  | .ldF _ => p = .i
  | .ldB _ => ∃ k, k < 3 ∧ p = .byte (s.i.toNat + k)
  | .ldMemI x => ∃ k, k ≤ x.toNat ∧ p = .byte (s.i.toNat + k)
  | .ldIMem x => ∃ r : Reg, r.toNat ≤ x.toNat ∧ p = .reg r

/-- The word `w` is the encoding of `i`, and the decoder reads it back. -/
def EncodesAs (w : Word) (i : Instr) : Prop := decodeWord w = some i ∧ encode i = w

/-- The result `r` is the state `s` in `Halted`, with the record of a fault raised by the instruction word `w` after the base
advance, and nothing else changed (spec/60_exceptions.md R115, R116). -/
def TakesFault (r : Result) (s : State) (kind : Fault) (w info : Word) : Prop :=
  r = .next { s with mode := .halted { kind := kind, pcInsn := s.pc - 2, word := some w, info := info } }

/-- The state without what no instruction reads: the sound timer and the redraw flag (spec/10_state.md R26, R30). -/
def forgetSoundAndRedraw (s : State) : State := { s with st := 0x00#8, redraw := false }

/-- The word a fetch at PC would read, with no check: the big-endian pair of bytes (spec/20_memory.md R35). -/
def wordAtPc (s : State) : Word := joinBytes (s.mem.read s.pc.toNat) (s.mem.read (s.pc.toNat + 1))

/-- A fetch at PC raises no fault (spec/40_step_cycle.md R65). -/
def FetchesAtPc (odd : Config.OddFetch) (s : State) : Prop :=
  s.pc.toNat ≤ 0xFFE ∧ (s.pc.getLsbD 0 = false ∨ odd = .read)

/-- `max(base, 0x1000)`, the first address above 0xFFF of a range that reaches there (spec/20_memory.md R43). -/
def firstMissing (base : Word) : Word := BitVec.ofNat 16 (max base.toNat 0x1000)

/-- The two faults of a fetch (spec/60_exceptions.md R114 codes 5 and 6). -/
def isFetchFault (f : Fault) : Bool := f == .fetchOutOfBounds || f == .misalignedFetch

/-- What a halted state shows of its fault (spec/60_exceptions.md R115, R116): the word is none exactly for a fetch fault, and
PC is where the step left it: unchanged for a fetch fault, else past the instruction. -/
def haltShowsFault (s : State) : Prop :=
  match s.mode with
  | .halted f => (f.word = none ↔ isFetchFault f.kind = true) ∧ s.pc = if isFetchFault f.kind then f.pcInsn else f.pcInsn + 2
  | _ => True

/-- The one check an instruction has of its own, where it fails (spec/60_exceptions.md R117): the kind of fault it then raises. -/
def ownFault (i : Instr) (s : State) : Option Fault :=
  match i with
  | .ret => if s.stack = [] then some .stackUnderflow else none
  | .call _ => if s.stack.length ≥ 16 then some .stackOverflow else none
  | .drw _ _ n => if n ≠ 0x0#4 ∧ s.i.toNat + n.toNat - 1 > 0xFFF then some .memoryOutOfBounds else none
  | .ldB _ => if s.i.toNat + 2 > 0xFFF then some .memoryOutOfBounds else none
  | .ldMemI x => if s.i.toNat + x.toNat > 0xFFF then some .memoryOutOfBounds else none
  | .ldIMem x => if s.i.toNat + x.toNat > 0xFFF then some .memoryOutOfBounds else none
  | .skp x => if (s.reg x).toNat > 0xF then some .keyIndexOutOfRange else none
  | .sknp x => if (s.reg x).toNat > 0xF then some .keyIndexOutOfRange else none
  | .cls | .jp _ | .seImm _ _ | .sneImm _ _ | .seReg _ _ | .ldImm _ _ | .addImm _ _ | .ldReg _ _ | .or _ _ | .and _ _ => none
  | .xor _ _ | .addReg _ _ | .sub _ _ | .shr _ _ | .subn _ _ | .shl _ _ | .sneReg _ _ | .ldI _ | .jpV0 _ | .rnd _ _ => none
  | .ldVxDt _ | .ldVxK _ | .ldDt _ | .ldSt _ | .addI _ | .ldF _ => none

/-- The machine's invariant: Memory in its canonical form (so no byte outside 0x000 to 0xFFF is listed), at most 16 return
addresses (spec/10_state.md R23), no wait and no halt before a load (spec/40_step_cycle.md R64), and a halt that shows its
fault. -/
structure StateInv (s : State) : Prop where
  memCanonical : s.mem.wf = true
  stackBounded : s.stack.length ≤ Config.stackDepth
  stoppedOnlyLoaded : s.mode ≠ .running → s.loaded = true
  haltedRecord : haltShowsFault s

/-! ### The end of a run (spec/70_reset_and_hazards.md R138) -/

/-- A run with the parameter `END_ADDR` is over: `Running`, PC at `END_ADDR`, and the self-jump there. -/
def isOver (endAddr : Addr) (s : State) : Prop :=
  s.mode = .running ∧ endAddr.toNat ≤ 0xFFE ∧ endAddr.getLsbD 0 = false ∧ s.pc = endAddr.setWidth 16 ∧
    joinBytes (s.mem.read endAddr.toNat) (s.mem.read (endAddr.toNat + 1)) = 0x1000#16 ||| endAddr.setWidth 16

/-- A run is failed when the engine is halted; a halted state is never a final one (spec/60_exceptions.md R118). -/
def isFailed (s : State) : Prop := ∃ f, s.mode = .halted f

/-- A run is waiting while the engine awaits a key. -/
def isWaiting (s : State) : Prop := ∃ x, s.mode = .awaitingKey x

end Sys2Proof.Machine
end

