-- ==== Sys2Proof/Certificates/Slice0/Obligations.lean ====
section
/-! DEFINITION. The statements for the provers. Each formalises rules of spec/ named in its docstring; the result statements
of the instructions say, in one sentence each, the encoding, the next state, everything that stays unchanged, and the fault where
the form has one. A meaning executes after the base advance, so `s.pc` is `PC_insn + 2` and `s.pc - 2` is `PC_insn`
(spec/40_step_cycle.md R66). -/

open Sys2Proof Sys2Proof.Machine

/-! ### Display (spec/41_display.md) -/

/-- R75, `00E0` CLS. -/
def Obligations.ClearScreenBlanksScreenAndSetsRedraw : Prop :=
  EncodesAs 0x00E0#16 .cls ∧
    ∀ s : State, ∃ t, exec .cls s = .next t ∧ (∀ px py, t.screen.pixel px py = false) ∧ t.redraw = true ∧
      OnlyWrites (fun p => (∃ px py, p = .pixel px py) ∨ p = .redraw) s t

/-- R76, `Dxyn` DRW: in range (or with `n = 0`) exactly the pixels under the sprite's 1-bits flip, VF is the collision, the
redraw flag is set; out of range, the fault before any write. That bit 7 is the leftmost pixel is the spec's own addition, "from
general knowledge, not in source" (D14; log entry 15); `n = 0` is its decision D15. -/
def Obligations.DrawXorsSpriteAndSetsCollision : Prop :=
  ∀ (x y : Reg) (n : Nibble), EncodesAs (0xD#4 ++ x ++ y ++ n) (.drw x y n) ∧
    ∀ s : State,
      (n = 0x0#4 ∨ s.i.toNat + n.toNat - 1 ≤ 0xFFF →
        ∃ t, exec (.drw x y n) s = .next t ∧
          (∀ px py, SpriteLandsOn s x y n px py → t.screen.pixel px py = !s.screen.pixel px py) ∧
          ((∃ px py, SpriteLandsOn s x y n px py ∧ s.screen.pixel px py = true) → t.reg 0xF = 0x01#8) ∧
          (¬ (∃ px py, SpriteLandsOn s x y n px py ∧ s.screen.pixel px py = true) → t.reg 0xF = 0x00#8) ∧
          t.redraw = true ∧
          OnlyWrites (fun p => (∃ px py, SpriteLandsOn s x y n px py ∧ p = .pixel px py) ∨ p = .reg 0xF ∨ p = .redraw) s t) ∧
      (n ≠ 0x0#4 ∧ s.i.toNat + n.toNat - 1 > 0xFFF →
        TakesFault (exec (.drw x y n) s) s .memoryOutOfBounds (0xD#4 ++ x ++ y ++ n) (firstMissing s.i))

/-- The source's draw property, whose own sentence is quoted in spec/95_test_vectors.md L1 EX4: two draws in a row of the same
sprite restore the Screen, and the second one sets VF exactly where the first had set a pixel, that is when some 1-bit landed on
a dark pixel. THE MODEL'S READING of the VF clause (log entry 16, DEDUCED): it is the source's sentence and R76's pseudocode,
against R76's corner-case sentence and the spec's own restatement of EX4, which it contradicts over lit pixels. Which pixel a
1-bit lands on is PRESUMED (log entry 15, the bit order D14). -/
def Obligations.DrawingTwiceRestoresScreen : Prop :=
  ∀ (x y : Reg) (n : Nibble) (s : State), x ≠ 0xF → y ≠ 0xF → (n = 0x0#4 ∨ s.i.toNat + n.toNat - 1 ≤ 0xFFF) →
    ∃ t u, exec (.drw x y n) s = .next t ∧ exec (.drw x y n) t = .next u ∧ u.screen = s.screen ∧
      ((∃ px py, SpriteLandsOn s x y n px py ∧ s.screen.pixel px py = false) → u.reg 0xF = 0x01#8) ∧
      (¬ (∃ px py, SpriteLandsOn s x y n px py ∧ s.screen.pixel px py = false) → u.reg 0xF = 0x00#8)

/-- A sentence of spec/41_display.md (a corner case of Dxyn, and the spec's restatement of EX4) that its own pseudocode
contradicts (log entry 16): "The second draw sets VF = 1 if the sprite has any 1 bit". Where every 1-bit of the sprite lands on a
lit pixel, the first draw darkens them all and the second collides with none. Where a 1-bit lands is PRESUMED (log entry 15).
EXPECTED TO FAIL. -/
def Obligations.SecondDrawCollidesWheneverSpriteHasABit : Prop :=
  ∀ (x y : Reg) (n : Nibble) (s t u : State), x ≠ 0xF → y ≠ 0xF → s.i.toNat + n.toNat - 1 ≤ 0xFFF →
    (∃ px py, SpriteLandsOn s x y n px py) → exec (.drw x y n) s = .next t → exec (.drw x y n) t = .next u →
    u.reg 0xF = 0x01#8

/-! ### Control flow (spec/42_control_flow.md) -/

/-- R79, `00EE` RET; the fault is the spec's decision D7. -/
def Obligations.ReturnPopsPcOrUnderflows : Prop :=
  EncodesAs 0x00EE#16 .ret ∧
    ∀ s : State,
      (∀ (rest : List Word) (v : Word), s.stack = rest ++ [v] → exec .ret s = .next { s with pc := v, stack := rest }) ∧
      (s.stack = [] → TakesFault (exec .ret s) s .stackUnderflow 0x00EE#16 (s.pc - 2))

/-- R80 and R86, `1nnn` JP and `Bnnn` JP V0: the targets, unmasked; the sum never wraps 16 bits. -/
def Obligations.JumpsSetPcUnmasked : Prop :=
  ∀ nnn : Addr, EncodesAs (0x1#4 ++ nnn) (.jp nnn) ∧ EncodesAs (0xB#4 ++ nnn) (.jpV0 nnn) ∧
    ∀ s : State,
      (∃ t, exec (.jp nnn) s = .next t ∧ t.pc.toNat = nnn.toNat ∧ OnlyWrites (fun p => p = .pc) s t) ∧
      (∃ t, exec (.jpV0 nnn) s = .next t ∧ t.pc.toNat = (s.reg 0x0).toNat + nnn.toNat ∧ OnlyWrites (fun p => p = .pc) s t)

/-- R81, `2nnn` CALL; the fault is the spec's decision D7. -/
def Obligations.CallPushesAdvancedPcOrOverflows : Prop :=
  ∀ nnn : Addr, EncodesAs (0x2#4 ++ nnn) (.call nnn) ∧
    ∀ s : State,
      (s.stack.length < 16 →
        exec (.call nnn) s = .next { s with stack := s.stack ++ [s.pc], pc := nnn.setWidth 16 }) ∧
      (s.stack.length = 16 → TakesFault (exec (.call nnn) s) s .stackOverflow (0x2#4 ++ nnn) (s.pc - 2))

/-- spec/95_test_vectors.md L1 EX5: a call whose target holds 00EE, then that 00EE, comes back after the call with the same
stack, in two steps. -/
def Obligations.CallThenReturnComesBack : Prop :=
  ∀ (odd : Config.OddFetch) (s : State) (nnn : Addr), s.loaded = true → s.mode = .running → FetchesAtPc odd s →
    wordAtPc s = 0x2#4 ++ nnn → s.stack.length < 16 → FetchesAtPc odd { s with pc := nnn.setWidth 16 } →
    wordAtPc { s with pc := nnn.setWidth 16 } = 0x00EE#16 →
    ∃ t, stepWith odd s = .next t ∧ t.stack = s.stack ++ [s.pc + 2] ∧ t.pc = nnn.setWidth 16 ∧
      stepWith odd t = .next { s with pc := s.pc + 2 }

/-- R82 to R85, the four skips on register values. -/
def Obligations.RegisterSkipsAddTwoWhenConditionHolds : Prop :=
  ∀ (x y : Reg) (kk : Byte),
    (EncodesAs (0x3#4 ++ x ++ kk) (.seImm x kk) ∧ EncodesAs (0x4#4 ++ x ++ kk) (.sneImm x kk) ∧
      EncodesAs (0x5#4 ++ x ++ y ++ 0x0#4) (.seReg x y) ∧ EncodesAs (0x9#4 ++ x ++ y ++ 0x0#4) (.sneReg x y)) ∧
    ∀ s : State,
      exec (.seImm x kk) s = .next { s with pc := if s.reg x = kk then s.pc + 2 else s.pc } ∧
      exec (.sneImm x kk) s = .next { s with pc := if s.reg x ≠ kk then s.pc + 2 else s.pc } ∧
      exec (.seReg x y) s = .next { s with pc := if s.reg x = s.reg y then s.pc + 2 else s.pc } ∧
      exec (.sneReg x y) s = .next { s with pc := if s.reg x ≠ s.reg y then s.pc + 2 else s.pc }

/-! ### Registers and arithmetic (spec/43_alu.md) -/

/-- R89 and R90, `6xkk` LD and `7xkk` ADD: the immediate loaded, and added modulo 256 with no flag. -/
def Obligations.ImmediateLoadAndAddWriteOneRegister : Prop :=
  ∀ (x : Reg) (kk : Byte), EncodesAs (0x6#4 ++ x ++ kk) (.ldImm x kk) ∧ EncodesAs (0x7#4 ++ x ++ kk) (.addImm x kk) ∧
    ∀ s : State,
      (∃ t, exec (.ldImm x kk) s = .next t ∧ t.reg x = kk ∧ OnlyWrites (fun p => p = .reg x) s t) ∧
      (∃ t, exec (.addImm x kk) s = .next t ∧ (t.reg x).toNat = ((s.reg x).toNat + kk.toNat) % 256 ∧
        OnlyWrites (fun p => p = .reg x) s t)

/-- R91 to R94, `8xy0` to `8xy3`: move, OR, AND, XOR; VF is kept unless it is the destination. -/
def Obligations.MoveAndLogicWriteOnlyDestination : Prop :=
  ∀ x y : Reg,
    (EncodesAs (0x8#4 ++ x ++ y ++ 0x0#4) (.ldReg x y) ∧ EncodesAs (0x8#4 ++ x ++ y ++ 0x1#4) (.or x y) ∧
      EncodesAs (0x8#4 ++ x ++ y ++ 0x2#4) (.and x y) ∧ EncodesAs (0x8#4 ++ x ++ y ++ 0x3#4) (.xor x y)) ∧
    ∀ s : State,
      (∃ t, exec (.ldReg x y) s = .next t ∧ t.reg x = s.reg y ∧ OnlyWrites (fun p => p = .reg x) s t) ∧
      (∃ t, exec (.or x y) s = .next t ∧ t.reg x = s.reg x ||| s.reg y ∧ OnlyWrites (fun p => p = .reg x) s t) ∧
      (∃ t, exec (.and x y) s = .next t ∧ t.reg x = s.reg x &&& s.reg y ∧ OnlyWrites (fun p => p = .reg x) s t) ∧
      (∃ t, exec (.xor x y) s = .next t ∧ t.reg x = s.reg x ^^^ s.reg y ∧ OnlyWrites (fun p => p = .reg x) s t)

/-- R95, `8xy4` ADD: the sum modulo 256, and the carry in VF unless VF is the destination, where the sum stays. -/
def Obligations.AddWritesSumAndCarry : Prop :=
  ∀ x y : Reg, EncodesAs (0x8#4 ++ x ++ y ++ 0x4#4) (.addReg x y) ∧
    ∀ s : State, ∃ t, exec (.addReg x y) s = .next t ∧
      (t.reg x).toNat = ((s.reg x).toNat + (s.reg y).toNat) % 256 ∧
      (x ≠ 0xF → t.reg 0xF = if (s.reg x).toNat + (s.reg y).toNat > 255 then 0x01#8 else 0x00#8) ∧
      OnlyWrites (fun p => p = .reg 0xF ∨ p = .reg x) s t

/-- R96 and R98, `8xy5` SUB into Vx and `8xy7` SUBN into **Vy**: the difference modulo 256, and in VF the strict comparison
unless VF is the destination. -/
def Obligations.SubtractionsWriteDifferenceAndStrictFlag : Prop :=
  ∀ x y : Reg,
    (EncodesAs (0x8#4 ++ x ++ y ++ 0x5#4) (.sub x y) ∧ EncodesAs (0x8#4 ++ x ++ y ++ 0x7#4) (.subn x y)) ∧
    ∀ s : State,
      (∃ t, exec (.sub x y) s = .next t ∧
        ((t.reg x).toNat : Int) = (((s.reg x).toNat : Int) - ((s.reg y).toNat : Int)) % 256 ∧
        (x ≠ 0xF → t.reg 0xF = if (s.reg x).toNat > (s.reg y).toNat then 0x01#8 else 0x00#8) ∧
        OnlyWrites (fun p => p = .reg 0xF ∨ p = .reg x) s t) ∧
      (∃ t, exec (.subn x y) s = .next t ∧
        ((t.reg y).toNat : Int) = (((s.reg y).toNat : Int) - ((s.reg x).toNat : Int)) % 256 ∧
        (y ≠ 0xF → t.reg 0xF = if (s.reg y).toNat > (s.reg x).toNat then 0x01#8 else 0x00#8) ∧
        OnlyWrites (fun p => p = .reg 0xF ∨ p = .reg y) s t)

/-- R97 and R99, `8xy6` SHR and `8xyE` SHL: Vx shifted by one, the bit shifted out in VF unless VF is the destination; for every
`y`, which is not read. -/
def Obligations.ShiftsWriteResultAndShiftedOutBit : Prop :=
  ∀ x y : Reg,
    (EncodesAs (0x8#4 ++ x ++ y ++ 0x6#4) (.shr x y) ∧ EncodesAs (0x8#4 ++ x ++ y ++ 0xE#4) (.shl x y)) ∧
    ∀ s : State,
      (∃ t, exec (.shr x y) s = .next t ∧ (t.reg x).toNat = (s.reg x).toNat / 2 ∧
        (x ≠ 0xF → (t.reg 0xF).toNat = (s.reg x).toNat % 2) ∧
        OnlyWrites (fun p => p = .reg 0xF ∨ p = .reg x) s t) ∧
      (∃ t, exec (.shl x y) s = .next t ∧ (t.reg x).toNat = (s.reg x).toNat * 2 % 256 ∧
        (x ≠ 0xF → (t.reg 0xF).toNat = (s.reg x).toNat / 128) ∧
        OnlyWrites (fun p => p = .reg 0xF ∨ p = .reg x) s t)

/-- spec/43_alu.md section 2 (`Cxkk` RND), for whatever byte the draw gives: the masked byte. THE MODEL'S CHOICE (log entry 4):
the free byte is `Config.randByte` of the counter `draws`, which the instruction advances, so that the next draw is another free
byte. -/
def Obligations.RandomWritesMaskedFreeByte : Prop :=
  ∀ (x : Reg) (kk : Byte), EncodesAs (0xC#4 ++ x ++ kk) (.rnd x kk) ∧
    ∀ s : State, ∃ t, exec (.rnd x kk) s = .next t ∧ t.reg x = Config.randByte s.draws &&& kk ∧
      t.reg x &&& ~~~kk = 0x00#8 ∧ t.draws = s.draws + 1 ∧ OnlyWrites (fun p => p = .reg x ∨ p = .draws) s t

/-! ### Index register and memory (spec/44_index_memory.md) -/

/-- R102, R103 and R104, `Annn` LD I, `Fx1E` ADD I and `Fx29` LD F: only I is written, never VF. -/
def Obligations.IndexRegisterInstructionsWriteOnlyI : Prop :=
  ∀ (x : Reg) (nnn : Addr),
    (EncodesAs (0xA#4 ++ nnn) (.ldI nnn) ∧ EncodesAs (0xF#4 ++ x ++ 0x1E#8) (.addI x) ∧
      EncodesAs (0xF#4 ++ x ++ 0x29#8) (.ldF x)) ∧
    ∀ s : State,
      (∃ t, exec (.ldI nnn) s = .next t ∧ t.i.toNat = nnn.toNat ∧ OnlyWrites (fun p => p = .i) s t) ∧
      (∃ t, exec (.addI x) s = .next t ∧ t.i.toNat = (s.i.toNat + (s.reg x).toNat) % 65536 ∧
        OnlyWrites (fun p => p = .i) s t) ∧
      (∃ t, exec (.ldF x) s = .next t ∧ t.i.toNat = 5 * (s.reg x).toNat ∧ OnlyWrites (fun p => p = .i) s t)

/-- R105, `Fx33` LD B: the three decimal digits at I, I+1 and I+2, or the range fault before any write. -/
def Obligations.DecimalStoreWritesThreeDigits : Prop :=
  ∀ x : Reg, EncodesAs (0xF#4 ++ x ++ 0x33#8) (.ldB x) ∧
    ∀ s : State,
      (s.i.toNat + 2 ≤ 0xFFF →
        ∃ t, exec (.ldB x) s = .next t ∧ (t.mem.read s.i.toNat).toNat = (s.reg x).toNat / 100 ∧
          (t.mem.read (s.i.toNat + 1)).toNat = (s.reg x).toNat / 10 % 10 ∧
          (t.mem.read (s.i.toNat + 2)).toNat = (s.reg x).toNat % 10 ∧
          OnlyWrites (fun p => p = .byte s.i.toNat ∨ p = .byte (s.i.toNat + 1) ∨ p = .byte (s.i.toNat + 2)) s t) ∧
      (s.i.toNat + 2 > 0xFFF →
        TakesFault (exec (.ldB x) s) s .memoryOutOfBounds (0xF#4 ++ x ++ 0x33#8) (firstMissing s.i))

/-- R106, `Fx55` LD [I], Vx: V0 to Vx at I to I+x, I unchanged, or the range fault before any write. -/
def Obligations.RegisterStoreWritesRangeAndKeepsI : Prop :=
  ∀ x : Reg, EncodesAs (0xF#4 ++ x ++ 0x55#8) (.ldMemI x) ∧
    ∀ s : State,
      (s.i.toNat + x.toNat ≤ 0xFFF →
        ∃ t, exec (.ldMemI x) s = .next t ∧
          (∀ r : Reg, r.toNat ≤ x.toNat → t.mem.read (s.i.toNat + r.toNat) = s.reg r) ∧
          OnlyWrites (fun p => ∃ a, s.i.toNat ≤ a ∧ a ≤ s.i.toNat + x.toNat ∧ p = .byte a) s t) ∧
      (s.i.toNat + x.toNat > 0xFFF →
        TakesFault (exec (.ldMemI x) s) s .memoryOutOfBounds (0xF#4 ++ x ++ 0x55#8) (firstMissing s.i))

/-- R107, `Fx65` LD Vx, [I]: V0 to Vx from I to I+x, I and the higher registers unchanged, or the range fault. -/
def Obligations.RegisterLoadReadsRangeAndKeepsI : Prop :=
  ∀ x : Reg, EncodesAs (0xF#4 ++ x ++ 0x65#8) (.ldIMem x) ∧
    ∀ s : State,
      (s.i.toNat + x.toNat ≤ 0xFFF →
        ∃ t, exec (.ldIMem x) s = .next t ∧
          (∀ r : Reg, r.toNat ≤ x.toNat → t.reg r = s.mem.read (s.i.toNat + r.toNat)) ∧
          OnlyWrites (fun p => ∃ r : Reg, r.toNat ≤ x.toNat ∧ p = .reg r) s t) ∧
      (s.i.toNat + x.toNat > 0xFFF →
        TakesFault (exec (.ldIMem x) s) s .memoryOutOfBounds (0xF#4 ++ x ++ 0x65#8) (firstMissing s.i))

/-- spec/95_test_vectors.md L1 EX6: `Fx55`, then `Fx65` with the same x and I from ANY state that still has that Memory,
restores V0 to Vx. -/
def Obligations.StoreThenLoadRestoresRegisters : Prop :=
  ∀ (x : Reg) (s : State), s.i.toNat + x.toNat ≤ 0xFFF →
    ∃ t, exec (.ldMemI x) s = .next t ∧
      ∀ u : State, u.mem = t.mem → u.i = t.i →
        ∃ w, exec (.ldIMem x) u = .next w ∧ ∀ r : Reg, r.toNat ≤ x.toNat → w.reg r = s.reg r

/-- spec/20_memory.md section 7, an inference the spec marks as its own ("derived: from rules R45 and R35"): a store by Fx33 or
Fx55 is seen by a fetch that follows it, wherever that fetch is. -/
def Obligations.StoresAreSeenByLaterFetch : Prop :=
  ∀ (odd : Config.OddFetch) (x : Reg) (s : State) (pc : Word), FetchesAtPc odd { s with pc := pc } →
    (s.i.toNat + x.toNat ≤ 0xFFF → ∃ t, exec (.ldMemI x) s = .next t ∧
      ∃ hi lo, fetchChecked odd { t with pc := pc } = .ok (hi ++ lo) ∧
        (∀ r : Reg, r.toNat ≤ x.toNat → pc.toNat = s.i.toNat + r.toNat → hi = s.reg r) ∧
        (∀ r : Reg, r.toNat ≤ x.toNat → pc.toNat + 1 = s.i.toNat + r.toNat → lo = s.reg r)) ∧
    (s.i.toNat + 2 ≤ 0xFFF → ∃ t, exec (.ldB x) s = .next t ∧
      ∃ hi lo : Byte, fetchChecked odd { t with pc := pc } = .ok (hi ++ lo) ∧
        (pc.toNat = s.i.toNat → hi.toNat = (s.reg x).toNat / 100 ∧ lo.toNat = (s.reg x).toNat / 10 % 10) ∧
        (pc.toNat = s.i.toNat + 1 → hi.toNat = (s.reg x).toNat / 10 % 10 ∧ lo.toNat = (s.reg x).toNat % 10) ∧
        (pc.toNat = s.i.toNat + 2 → hi.toNat = (s.reg x).toNat % 10) ∧
        (pc.toNat + 1 = s.i.toNat → lo.toNat = (s.reg x).toNat / 100))

/-! ### Keypad and timers (spec/45_input_timers.md) -/

/-- R108 and R109, `Ex9E` SKP and `ExA1` SKNP; the fault is the spec's decision D13. -/
def Obligations.KeySkipsTestKeyOrFault : Prop :=
  ∀ x : Reg, EncodesAs (0xE#4 ++ x ++ 0x9E#8) (.skp x) ∧ EncodesAs (0xE#4 ++ x ++ 0xA1#8) (.sknp x) ∧
    ∀ s : State,
      (∀ k : Fin 16, (s.reg x).toNat = k.val →
        exec (.skp x) s = .next { s with pc := if s.keys[k] = true then s.pc + 2 else s.pc } ∧
        exec (.sknp x) s = .next { s with pc := if s.keys[k] = false then s.pc + 2 else s.pc }) ∧
      ((s.reg x).toNat > 0xF →
        TakesFault (exec (.skp x) s) s .keyIndexOutOfRange (0xE#4 ++ x ++ 0x9E#8) (BitVec.ofNat 16 (s.reg x).toNat) ∧
        TakesFault (exec (.sknp x) s) s .keyIndexOutOfRange (0xE#4 ++ x ++ 0xA1#8) (BitVec.ofNat 16 (s.reg x).toNat))

/-- R110, R112 and R113, `Fx07`, `Fx15` and `Fx18`: the timer moves; after `Fx18` the tone signal is on exactly while ST is nonzero. -/
def Obligations.TimerMovesCopyOneByte : Prop :=
  ∀ x : Reg,
    (EncodesAs (0xF#4 ++ x ++ 0x07#8) (.ldVxDt x) ∧ EncodesAs (0xF#4 ++ x ++ 0x15#8) (.ldDt x) ∧
      EncodesAs (0xF#4 ++ x ++ 0x18#8) (.ldSt x)) ∧
    ∀ s : State,
      (∃ t, exec (.ldVxDt x) s = .next t ∧ t.reg x = s.dt ∧ OnlyWrites (fun p => p = .reg x) s t) ∧
      exec (.ldDt x) s = .next { s with dt := s.reg x } ∧
      exec (.ldSt x) s = .next { s with st := s.reg x } ∧ (toneOn { s with st := s.reg x } = true ↔ s.reg x ≠ 0x00#8)

/-- R111, `Fx0A` LD Vx, K: the latch, and what the host's later `resolve_key` then does. -/
def Obligations.KeyWaitSuspendsUntilResolved : Prop :=
  ∀ x : Reg, EncodesAs (0xF#4 ++ x ++ 0x0A#8) (.ldVxK x) ∧
    ∀ s : State, exec (.ldVxK x) s = .next { s with mode := .awaitingKey x } ∧
      ∀ (odd : Config.OddFetch) (u : State), u.mode = .awaitingKey x →
        (∀ (k : Fin 16) (pressed : Bool),
          hostCall odd (.setKey k.val pressed) u = .next ({ u with keys := u.keys.set k.val pressed }, .nothing)) ∧
        hostCall odd .isAwaitingKey u = .next (u, .latch (some x)) ∧
        hostCall odd .tickTimers u = .next ({ u with dt := tickDown u.dt, st := tickDown u.st }, .nothing) ∧
        (u.loaded = true → stepWith odd u = .next u) ∧
        ∀ v : Nat, v ≤ 15 → ∃ w, hostCall odd (.resolveKey v) u = .next (w, .nothing) ∧ (w.reg x).toNat = v ∧
          w.mode = .running ∧ OnlyWrites (fun p => p = .reg x ∨ p = .mode) u w

/-! ### The step (spec/40_step_cycle.md) -/

/-- R66: when the word at PC is an instruction, a step is exactly that instruction executed with PC advanced by 2, where an
instruction that does not write PC leaves it. -/
def Obligations.StepRunsDecodedInstructionAfterBaseAdvance : Prop :=
  ∀ (odd : Config.OddFetch) (s : State) (i : Instr), s.loaded = true → s.mode = .running → FetchesAtPc odd s →
    decodeWord (wordAtPc s) = some i → stepWith odd s = exec i { s with pc := s.pc + 2 } ∧
      (odd = Config.oddFetch → step s = exec i { s with pc := s.pc + 2 }) ∧
      (¬ mayWrite i { s with pc := s.pc + 2 } .pc → ∃ t, stepWith odd s = .next t ∧ t.pc = s.pc + 2)

/-- R65: the fetch checks the range first, then the alignment, then reads the big-endian pair; a step that meets a fetch fault
leaves PC, and everything but the mode, as it was. -/
def Obligations.FetchChecksRangeThenAlignment : Prop :=
  ∀ (odd : Config.OddFetch) (s : State),
    (s.pc.toNat > 0xFFE → fetchChecked odd s = .error .fetchOutOfBounds) ∧
    (s.pc.toNat ≤ 0xFFE → s.pc.getLsbD 0 = true → odd = .fault → fetchChecked odd s = .error .misalignedFetch) ∧
    (s.pc.toNat ≤ 0xFFE → (s.pc.getLsbD 0 = false ∨ odd = .read) →
      fetchChecked odd s = .ok (s.mem.read s.pc.toNat ++ s.mem.read (s.pc.toNat + 1))) ∧
    (s.loaded = true → s.mode = .running → ∀ f, fetchChecked odd s = .error f →
      stepWith odd s = .next { s with mode := .halted { kind := f, pcInsn := s.pc, word := none, info := s.pc } })

/-- R67: an illegal word halts the engine with the raw word recorded, after the base advance. -/
def Obligations.IllegalWordHaltsAfterBaseAdvance : Prop :=
  ∀ (odd : Config.OddFetch) (s : State), s.loaded = true → s.mode = .running → FetchesAtPc odd s →
    decodeWord (wordAtPc s) = none →
    stepWith odd s = .next { s with
      pc := s.pc + 2
      mode := .halted { kind := .unrecognizedInstruction, pcInsn := s.pc, word := some (wordAtPc s), info := wordAtPc s } }

/-- R68 and R69: a step while awaiting a key, or halted, changes no state; after resolution the next step executes the
instruction PC already points to; and no host call takes a loaded machine out of
`Halted`. -/
def Obligations.WaitingAndHaltedStepsChangeNothing : Prop :=
  ∀ (odd : Config.OddFetch) (s : State), s.loaded = true →
    (∀ x, s.mode = .awaitingKey x → stepWith odd s = .next s ∧
      ∀ v, v ≤ 15 → ∃ w, hostCall odd (.resolveKey v) s = .next (w, .nothing) ∧ w.pc = s.pc ∧ w.mem = s.mem ∧
        ∀ i, FetchesAtPc odd s → decodeWord (wordAtPc s) = some i → stepWith odd w = exec i { w with pc := s.pc + 2 }) ∧
    (∀ f, s.mode = .halted f → stepWith odd s = .next s ∧
      ∀ op t r, hostCall odd op s = .next (t, r) → t.mode = .halted f)

/-- spec/60_exceptions.md sections 1 and 4 ("`Halted(f)` is absorbing"; the frozen host operations): in `Halted` no host call changes anything at all. -/
def Obligations.HaltedMachineIsFrozen : Prop :=
  ∀ (odd : Config.OddFetch) (s t : State) (f : FaultRecord) (ops : List HostOp), s.loaded = true → s.mode = .halted f →
    hostRun odd ops s = .next t → t = s

/-- R63: the engine mode changes only by an executed Fx0A, by `resolve_key`, and by a fault; and each row of R63's table: Fx0A,
`resolve_key`, a step that raises a fault (of the fetch, of an illegal word, of the instruction's own check), awaiting, halted. -/
def Obligations.ModeChangesOnlyAsListed : Prop :=
  ∀ (odd : Config.OddFetch) (s : State),
    (∀ (op : HostOp) (t : State) (r : Reply), hostCall odd op s = .next (t, r) →
      t.mode = s.mode ∨
        (op = .step ∧ s.mode = .running ∧
          ((∃ x, decodeWord (wordAtPc s) = some (.ldVxK x) ∧ t.mode = .awaitingKey x) ∨ ∃ f, t.mode = .halted f)) ∨
        (∃ x v, op = .resolveKey v ∧ s.mode = .awaitingKey x ∧ t.mode = .running ∧ (t.reg x).toNat = v)) ∧
    (s.loaded = true → s.mode = .running → FetchesAtPc odd s → ∀ x, decodeWord (wordAtPc s) = some (.ldVxK x) →
      ∃ t, stepWith odd s = .next t ∧ t.mode = .awaitingKey x) ∧
    (∀ x v, s.mode = .awaitingKey x → v ≤ 15 →
      ∃ t, hostCall odd (.resolveKey v) s = .next (t, .nothing) ∧ t.mode = .running ∧ (t.reg x).toNat = v) ∧
    (s.loaded = true → s.mode = .running → ∀ k,
      (fetchChecked odd s = .error k ∨
        (FetchesAtPc odd s ∧ decodeWord (wordAtPc s) = none ∧ k = .unrecognizedInstruction) ∨
        (FetchesAtPc odd s ∧ ∃ i, decodeWord (wordAtPc s) = some i ∧ ownFault i s = some k)) →
      ∃ t f, stepWith odd s = .next t ∧ t.mode = .halted f ∧ f.kind = k) ∧
    (s.loaded = true → ∀ x, s.mode = .awaitingKey x → stepWith odd s = .next s) ∧
    (s.loaded = true → ∀ f, s.mode = .halted f → ∀ op t r, hostCall odd op s = .next (t, r) → t = s)

/-- spec/40_step_cycle.md section 4 with the "Writes" lines of files 41 to 45: an instruction changes only what its line names;
when it faults, it has written nothing. Two arms of `mayWrite` rest on THE MODEL'S log: `Cxkk` also advances the model's own
counter `draws` (log entry 4, DESIGN CHOICE), and the pixels `Dxyn` may write are those under the sprite's 1-bits in the PRESUMED
bit order (log entry 15). -/
def Obligations.InstructionsWriteOnlyWhatTheirRuleLists : Prop :=
  ∀ (i : Instr) (s : State), ∃ t, exec i s = .next t ∧
    (OnlyWrites (mayWrite i s) s t ∨ ∃ kind info, TakesFault (exec i s) s kind (encode i) info)

/-- R72: an instruction's check comes before its first write. Where it fails, the instruction has written nothing and its fault
is taken; where it does not, or the instruction has none, the instruction goes on and halts nothing. -/
def Obligations.InstructionsFaultExactlyWhenTheirCheckFails : Prop :=
  ∀ (i : Instr) (s : State),
    (∀ k, ownFault i s = some k → ∃ info, TakesFault (exec i s) s k (encode i) info) ∧
    (ownFault i s = none → ∃ t, exec i s = .next t ∧ (s.mode = .running → ∀ f, t.mode ≠ .halted f))

/-! ### Faults (spec/60_exceptions.md) -/

/-- R116: faults are precise, and the step returns the record to its caller. -/
def Obligations.FaultsArePreciseAndReturned : Prop :=
  ∀ (odd : Config.OddFetch) (s t : State) (f : FaultRecord), s.mode = .running → stepWith odd s = .next t →
    t.mode = .halted f →
    t = { s with pc := if isFetchFault f.kind then s.pc else s.pc + 2, mode := .halted f } ∧ f.pcInsn = s.pc ∧
      (f.word = if isFetchFault f.kind then none else some (wordAtPc s)) ∧
      hostCall odd .step s = .next (t, .faultRecord f)

/-- R117: the order of the checks, and the one check each instruction may have. -/
def Obligations.FaultChecksComeInOrder : Prop :=
  ∀ (odd : Config.OddFetch) (s t : State) (f : FaultRecord), s.mode = .running → stepWith odd s = .next t →
    t.mode = .halted f →
    if s.pc.toNat > 0xFFE then f.kind = .fetchOutOfBounds
    else if s.pc.getLsbD 0 = true ∧ odd = .fault then f.kind = .misalignedFetch
    else
      match decodeWord (wordAtPc s) with
      | none => f.kind = .unrecognizedInstruction
      | some .ret => f.kind = .stackUnderflow ∧ s.stack = []
      | some (.call _) => f.kind = .stackOverflow ∧ s.stack.length ≥ 16
      | some (.drw _ _ n) => f.kind = .memoryOutOfBounds ∧ n ≠ 0x0#4 ∧ s.i.toNat + n.toNat > 0x1000
      | some (.ldB _) => f.kind = .memoryOutOfBounds ∧ s.i.toNat + 3 > 0x1000
      | some (.ldMemI x) => f.kind = .memoryOutOfBounds ∧ s.i.toNat + x.toNat + 1 > 0x1000
      | some (.ldIMem x) => f.kind = .memoryOutOfBounds ∧ s.i.toNat + x.toNat + 1 > 0x1000
      | some (.skp x) => f.kind = .keyIndexOutOfRange ∧ (s.reg x).toNat > 0xF
      | some (.sknp x) => f.kind = .keyIndexOutOfRange ∧ (s.reg x).toNat > 0xF
      | some _ => False

/-! ### The host interface (spec/60_exceptions.md) -/

/-- R121: one tick, for every mode. -/
def Obligations.TimerTickCountsDownNonzeroTimers : Prop :=
  ∀ (odd : Config.OddFetch) (s : State),
    ((∃ f, s.mode = .halted f) → hostCall odd .tickTimers s = .next (s, .nothing)) ∧
    (¬ (∃ f, s.mode = .halted f) → ∃ t, hostCall odd .tickTimers s = .next (t, .nothing) ∧
      t.dt.toNat = s.dt.toNat - 1 ∧ t.st.toNat = s.st.toNat - 1 ∧ OnlyWrites (fun p => p = .dt ∨ p = .st) s t)

/-- spec/45_input_timers.md, the example of `Fx18`, with R123: the tone is on for exactly V[x] ticks. -/
def Obligations.ToneLastsExactlyTheTicksLoaded : Prop :=
  ∀ (x : Reg) (s : State) (k : Nat), ¬ (∃ f, s.mode = .halted f) →
    ∃ t, exec (.ldSt x) s = .next t ∧ (toneOn (tickTimers^[k] t) = true ↔ k < (s.reg x).toNat)

/-- R124: `set_key` writes one key and nothing else, ends no wait, and is refused above 15; it changes nothing in `Halted`
(R127). -/
def Obligations.SetKeyWritesOneKey : Prop :=
  ∀ (odd : Config.OddFetch) (s : State) (pressed : Bool),
    (∀ k : Nat, k > 15 → hostCall odd (.setKey k pressed) s = .refused .setKeyIndex) ∧
    (∀ k : Fin 16, ¬ (∃ f, s.mode = .halted f) → ∃ t, hostCall odd (.setKey k.val pressed) s = .next (t, .nothing) ∧
      t.keys[k] = pressed ∧ t.mode = s.mode ∧ OnlyWrites (fun p => p = .key k) s t) ∧
    (∀ k : Fin 16, (∃ f, s.mode = .halted f) → hostCall odd (.setKey k.val pressed) s = .next (s, .nothing))

/-- R125: `resolve_key`. -/
def Obligations.ResolveKeyWritesLatchedRegister : Prop :=
  ∀ (odd : Config.OddFetch) (s : State) (v : Nat),
    (∀ x, s.mode = .awaitingKey x → v ≤ 15 → ∃ t, hostCall odd (.resolveKey v) s = .next (t, .nothing) ∧
      (t.reg x).toNat = v ∧ t.mode = .running ∧ OnlyWrites (fun p => p = .reg x ∨ p = .mode) s t) ∧
    (∀ x, s.mode = .awaitingKey x → v > 15 → hostCall odd (.resolveKey v) s = .refused .resolveKeyValue) ∧
    ((∀ x, s.mode ≠ .awaitingKey x) → hostCall odd (.resolveKey v) s = .refused .resolveKeyNotAwaiting)

/-- R129: the refused calls. -/
def Obligations.HostCallsOutsideTheInterfaceAreRefused : Prop :=
  ∀ (odd : Config.OddFetch) (s : State),
    (s.loaded = false → hostCall odd .step s = .refused .stepBeforeLoad ∧ step s = .refused .stepBeforeLoad) ∧
    (s.loaded = true → ∀ bytes, hostCall odd (.load bytes) s = .refused .loadTwice) ∧
    (∀ t, stepWith odd s = .next t → ∀ bytes, hostCall odd (.load bytes) t = .refused .loadTwice) ∧
    (∀ k p, k > 15 → hostCall odd (.setKey k p) s = .refused .setKeyIndex) ∧
    (∀ v, (∀ x, s.mode ≠ .awaitingKey x) → hostCall odd (.resolveKey v) s = .refused .resolveKeyNotAwaiting) ∧
    (∀ x v, s.mode = .awaitingKey x → v > 15 → hostCall odd (.resolveKey v) s = .refused .resolveKeyValue)

/-- R34 and R126, with R77 and R127 for the screen and the redraw flag: every read answers the state's value and changes nothing;
only `clear_redraw_flag` clears the flag. -/
def Obligations.HostReadsHaveNoSideEffect : Prop :=
  ∀ (odd : Config.OddFetch) (s : State),
    (∃ px, hostCall odd .readScreen s = .next (s, .grid px) ∧ px.length = 2048 ∧
      ∀ (x : Fin 64) (y : Fin 32), px[y.val * 64 + x.val]? = some (if s.screen.pixel x y then 0x01#8 else 0x00#8)) ∧
    hostCall odd .readRedrawFlag s = .next (s, .flag s.redraw) ∧
    hostCall odd .isAwaitingKey s =
      .next (s, .latch (match s.mode with | .awaitingKey x => some x | .running => none | .halted _ => none)) ∧
    (∀ r, hostCall odd (.readReg r) s = .next (s, .byte (s.reg r))) ∧
    hostCall odd .readI s = .next (s, .word s.i) ∧ hostCall odd .readPc s = .next (s, .word s.pc) ∧
    hostCall odd .readDt s = .next (s, .byte s.dt) ∧ hostCall odd .readSt s = .next (s, .byte s.st) ∧
    (∀ a, hostCall odd (.readMem a) s = .next (s, .byte (s.mem.read a.toNat))) ∧
    (¬ (∃ f, s.mode = .halted f) → hostCall odd .clearRedrawFlag s = .next ({ s with redraw := false }, .nothing))

/-! ### Construction and loading (spec/70_reset_and_hazards.md) -/

/-- R134: what construction leaves, for EVERY font and EVERY reset profile (R6), and the column of values under the default
profile; the model's counter `draws` is not named. The rule records its values as the spec's decisions D4, D5 and D6 (log
entry 2). -/
def Obligations.ConstructionLeavesTheListedValues : Prop :=
  (∀ (font : Config.Font) (profile : ResetProfile),
    (∀ (d : Fin 16) (k : Fin 5), (construct font profile).mem.read (5 * d.val + k.val) = font[d][k]) ∧
    (∀ a, 0x050 ≤ a → a ≤ 0xFFF → (construct font profile).mem.read a = profile.mem.getD (a - 0x050) 0x00#8) ∧
    (∀ r : Reg, (construct font profile).reg r = profile.v[r.toNat]'r.isLt) ∧
    (construct font profile).i = profile.i ∧ (construct font profile).dt = profile.dt ∧
    (construct font profile).st = profile.st ∧ (construct font profile).pc = 0x0200#16 ∧
    (construct font profile).stack = [] ∧ (∀ x y, (construct font profile).screen.pixel x y = false) ∧
    (∀ k, (construct font profile).key k = false) ∧ (construct font profile).mode = .running ∧
    (construct font profile).redraw = false ∧ (construct font profile).loaded = false) ∧
  ∀ font : Config.Font,
    (∀ a, 0x050 ≤ a → a ≤ 0xFFF → (construct font {}).mem.read a = 0x00#8) ∧
    (∀ r, (construct font {}).reg r = 0x00#8) ∧ (construct font {}).i = 0x0000#16 ∧
    (construct font {}).dt = 0x00#8 ∧ (construct font {}).st = 0x00#8

/-- spec/70_reset_and_hazards.md section 1, with THE MODEL'S CHOICES of log entries 1 (the default font's bytes, PRESUMED) and 4
(the counter `draws`): `State.reset`, whose Memory lists nothing, is the same data as construction under the defaults, and so
is the machine after construction with a profile that names the default values. -/
def Obligations.ResetIsConstructionWithTheDefaults : Prop :=
  State.reset = construct Config.defaultFont {} ∧
    ∀ zeros : Nat, construct Config.defaultFont { mem := List.replicate zeros 0x00#8 } = State.reset

/-- R135: `load` is all or nothing, and once only. -/
def Obligations.LoadCopiesWholeRomOrNothing : Prop :=
  ∀ (odd : Config.OddFetch) (s : State) (bytes : List Byte),
    (s.loaded = true → hostCall odd (.load bytes) s = .refused .loadTwice) ∧
    (s.loaded = false → bytes.length > 3584 → hostCall odd (.load bytes) s = .next (s, .loadTooLarge)) ∧
    (s.loaded = false → bytes.length ≤ 3584 → ∃ t, hostCall odd (.load bytes) s = .next (t, .success) ∧ t.loaded = true ∧
      (∀ k b, bytes[k]? = some b → t.mem.read (0x200 + k) = b) ∧
      OnlyWrites (fun p => p = .loaded ∨ ∃ k, k < bytes.length ∧ p = .byte (0x200 + k)) s t)

/-- R136: the launch state of a ROM is construction followed by one successful load, for every font and profile. -/
def Obligations.LaunchStateIsConstructionThenLoad : Prop :=
  ∀ (odd : Config.OddFetch) (font : Config.Font) (profile : ResetProfile) (rom : List Byte), rom.length ≤ 3584 →
    hostCall odd (.load rom) (construct font profile) = .next (launch font profile rom, .success) ∧
    (launch font profile rom).loaded = true ∧ (launch font profile rom).mode = .running ∧
    (launch font profile rom).pc = 0x0200#16 ∧
    (∀ k b, rom[k]? = some b → (launch font profile rom).mem.read (0x200 + k) = b) ∧
    OnlyWrites (fun p => p = .loaded ∨ ∃ k, k < rom.length ∧ p = .byte (0x200 + k))
      (construct font profile) (launch font profile rom)

/-- spec/70_reset_and_hazards.md section 4: once a run is over, every further step changes nothing. -/
def Obligations.OverRunStepsChangeNothing : Prop :=
  ∀ (odd : Config.OddFetch) (s : State) (endAddr : Addr), s.loaded = true → isOver endAddr s →
    stepWith odd s = .next s ∧ step s = .next s

/-- THE MODEL'S CONVENTION (log entry 7): `withFetchWord` makes the very next step run exactly the word it places, from every
state. -/
def Obligations.PlacedWordIsTheNextInstructionRun : Prop :=
  ∀ (s : State) (w : Nat) (i : Instr), decodeTableWord 16 w = some i →
    step (s.withFetchWord 16 w) = exec i (s.withFetchWord 16 w).advance ∧ (s.withFetchWord 16 w).v = s.v ∧
      (FetchesAtPc Config.oddFetch s → (s.withFetchWord 16 w).pc = s.pc)

/-! ### Decoding (spec/30_encoding.md) -/

/-- R56 and R57 with the "Encoding" lines of files 41 to 45: a word decodes to an instruction exactly when it is that
instruction's encoding, for every word and every operand value. -/
def Obligations.DecodeAndEncodeAreInverse : Prop :=
  ∀ (w : Word) (i : Instr), decodeWord w = some i ↔ encode i = w

/-- spec/30_encoding.md section 3: the two-level dispatch and `Match` select the same row for every word, and that row is the only
one that matches, which the spec marks as its own inference ("derived: by inspection of the table"). -/
def Obligations.DispatchAndMatchTableSelectTheSameRow : Prop :=
  opcodeTable.length = 34 ∧
    ∀ w : Word, matchWord w = (decodeWord w).map rowOf ∧
      ∀ r ∈ opcodeTable, ∀ r' ∈ opcodeTable, rowMatches r w = true → rowMatches r' w = true → r = r'

/-- spec/30_encoding.md section 4, an inference the spec marks as its own ("derived: from rule R59"): every word is an instruction,
or illegal by the table there; the word 0x0000 is illegal. -/
def Obligations.EveryWordIsAnInstructionOrListedIllegal : Prop :=
  (∀ w : Word, (decodeWord w).isSome = legalWord w) ∧ decodeWord 0x0000#16 = none

/-- spec/95_test_vectors.md L2, L3: words written out by the spec decode to what the spec says they are, one or more of every
family, and its illegal examples do not. -/
def Obligations.WordsOfTheSpecDecodeAsItSays : Prop :=
  decodeWord 0x00E0 = some .cls ∧ decodeWord 0xD012 = some (.drw 0x0 0x1 0x2) ∧ decodeWord 0x00EE = some .ret ∧
    decodeWord 0x1204 = some (.jp 0x204) ∧ decodeWord 0x2210 = some (.call 0x210) ∧
    decodeWord 0x3310 = some (.seImm 0x3 0x10) ∧ decodeWord 0x9120 = some (.sneReg 0x1 0x2) ∧
    decodeWord 0xB300 = some (.jpV0 0x300) ∧ decodeWord 0x6A9C = some (.ldImm 0xA 0x9C) ∧
    decodeWord 0x8127 = some (.subn 0x1 0x2) ∧ decodeWord 0x810E = some (.shl 0x1 0x0) ∧
    decodeWord 0xC30F = some (.rnd 0x3 0x0F) ∧ decodeWord 0xA300 = some (.ldI 0x300) ∧
    decodeWord 0xFA33 = some (.ldB 0xA) ∧ decodeWord 0xF265 = some (.ldIMem 0x2) ∧ decodeWord 0xE59E = some (.skp 0x5) ∧
    decodeWord 0xF30A = some (.ldVxK 0x3) ∧ decodeWord 0x0123 = none ∧ decodeWord 0x5121 = none ∧
    decodeWord 0x8128 = none ∧ decodeWord 0x9128 = none ∧ decodeWord 0xE5A2 = none ∧ decodeWord 0xF0FF = none

/-! ### The whole machine -/

/-- The invariant holds right after construction. -/
def Obligations.InvariantHoldsAtReset : Prop := StateInv State.reset

/-- Every step keeps the invariant, from every state that has it and under either value of `ODD_FETCH`. -/
def Obligations.EveryStepKeepsTheInvariant : Prop :=
  ∀ (odd : Config.OddFetch) (s t : State), StateInv s → stepWith odd s = .next t → StateInv t

/-- Every call of a host keeps the invariant, from every state that has it (R127, R128), and construction, with any font and any
reset profile, gives it. -/
def Obligations.EveryHostCallKeepsTheInvariant : Prop :=
  (∀ (odd : Config.OddFetch) (op : HostOp) (s t : State) (r : Reply), StateInv s → hostCall odd op s = .next (t, r) →
    StateInv t) ∧
  ∀ (font : Config.Font) (profile : ResetProfile), StateInv (construct font profile)

/-- Every session of a host keeps the invariant: any construction, any ROM, any order of calls (R128). -/
def Obligations.EveryHostSessionKeepsTheInvariant : Prop :=
  ∀ (odd : Config.OddFetch) (font : Config.Font) (profile : ResetProfile) (ops : List HostOp) (t : State),
    hostRun odd ops (construct font profile) = .next t → StateInv t

/-- spec/10_state.md section 1 (who writes what): a step writes neither the keypad nor `Loaded`; once loaded, no other host call
writes Memory, I, PC, the stack or the Screen, and only `resolve_key` writes a register, the latched one. -/
def Obligations.EngineAndHostWriteOnlyTheirOwnState : Prop :=
  ∀ (odd : Config.OddFetch) (op : HostOp) (s t : State) (r : Reply), s.loaded = true → hostCall odd op s = .next (t, r) →
    t.loaded = true ∧
      (op = .step → t.keys = s.keys) ∧
      (op ≠ .step → t.mem = s.mem ∧ t.i = s.i ∧ t.pc = s.pc ∧ t.stack = s.stack ∧ t.screen = s.screen ∧
        ∀ q, t.reg q ≠ s.reg q → s.mode = .awaitingKey q ∧ ∃ v, op = .resolveKey v)

/-- spec/10_state.md section 3 (R19): VF changes only in the six flag-writing instructions, or as the destination an instruction
names. -/
def Obligations.FlagsRegisterChangesOnlyWhereListed : Prop :=
  ∀ (i : Instr) (s t : State), exec i s = .next t → t.reg 0xF ≠ s.reg 0xF →
    match i with
    | .addReg _ _ | .sub _ _ | .shr _ _ | .subn _ _ | .shl _ _ | .drw _ _ _ => True
    | .ldImm x _ | .addImm x _ | .ldReg x _ | .or x _ | .and x _ | .xor x _ | .rnd x _ | .ldVxDt x | .ldIMem x => x = 0xF
    | _ => False

/-- spec/60_exceptions.md section 2: "written only by Fx15, Fx18 and `tick_timers`", and "A timer at 0 stays at 0 until Fx15/Fx18
writes it". -/
def Obligations.TimersChangeOnlyWhereListed : Prop :=
  ∀ (odd : Config.OddFetch) (op : HostOp) (s t : State) (r : Reply), hostCall odd op s = .next (t, r) →
    (t.dt ≠ s.dt → (op = .tickTimers ∧ s.dt ≠ 0x00#8) ∨ (op = .step ∧ ∃ x, decodeWord (wordAtPc s) = some (.ldDt x))) ∧
      (t.st ≠ s.st → (op = .tickTimers ∧ s.st ≠ 0x00#8) ∨ (op = .step ∧ ∃ x, decodeWord (wordAtPc s) = some (.ldSt x)))

/-- spec/10_state.md section 11: only a drawing instruction sets the redraw flag, only `clear_redraw_flag` clears it, and it is
set whenever the Screen has changed. -/
def Obligations.RedrawFlagIsSetByDrawingAndClearedByHost : Prop :=
  ∀ (odd : Config.OddFetch) (op : HostOp) (s t : State) (r : Reply), hostCall odd op s = .next (t, r) →
    (s.redraw = true → t.redraw = false → op = .clearRedrawFlag) ∧
      (s.redraw = false → t.redraw = true → op = .step ∧
        (decodeWord (wordAtPc s) = some .cls ∨ ∃ x y n, decodeWord (wordAtPc s) = some (.drw x y n))) ∧
      (t.screen ≠ s.screen → t.redraw = true)

/-- spec/10_state.md sections 7 and 11: no instruction reads ST or the redraw flag. Two loaded machines that differ only in
those two still differ only in those two after a step. A premise of the Cxkk case: equal states hold equal counters `draws`, so
that both runs are given the SAME free byte. That is the model's choice (log entry 4, DESIGN CHOICE); R100 makes each draw free, and
the statement says nothing of two runs whose draws differ. -/
def Obligations.NoStepReadsSoundTimerOrRedrawFlag : Prop :=
  ∀ (odd : Config.OddFetch) (s s' t : State), forgetSoundAndRedraw s = forgetSoundAndRedraw s' → stepWith odd s = .next t →
    ∃ t', stepWith odd s' = .next t' ∧ forgetSoundAndRedraw t = forgetSoundAndRedraw t'
end

