-- ==== Sys2Proof/Laws/State.lean ====
section
/-! SUPPORT. One lemma per field per update of `State`, each true by definition, so that no later proof unfolds a record
update; and the same for the shared operations that write one field. -/

namespace Sys2Proof.Machine

/-! ### setMem -/

@[simp] theorem State.setMem_mem (s : State) (m : Memory) : (s.setMem m).mem = m := rfl
@[simp] theorem State.setMem_v (s : State) (m : Memory) : (s.setMem m).v = s.v := rfl
@[simp] theorem State.setMem_i (s : State) (m : Memory) : (s.setMem m).i = s.i := rfl
@[simp] theorem State.setMem_pc (s : State) (m : Memory) : (s.setMem m).pc = s.pc := rfl
@[simp] theorem State.setMem_stack (s : State) (m : Memory) : (s.setMem m).stack = s.stack := rfl
@[simp] theorem State.setMem_dt (s : State) (m : Memory) : (s.setMem m).dt = s.dt := rfl
@[simp] theorem State.setMem_st (s : State) (m : Memory) : (s.setMem m).st = s.st := rfl
@[simp] theorem State.setMem_screen (s : State) (m : Memory) : (s.setMem m).screen = s.screen := rfl
@[simp] theorem State.setMem_keys (s : State) (m : Memory) : (s.setMem m).keys = s.keys := rfl
@[simp] theorem State.setMem_mode (s : State) (m : Memory) : (s.setMem m).mode = s.mode := rfl
@[simp] theorem State.setMem_redraw (s : State) (m : Memory) : (s.setMem m).redraw = s.redraw := rfl
@[simp] theorem State.setMem_loaded (s : State) (m : Memory) : (s.setMem m).loaded = s.loaded := rfl
@[simp] theorem State.setMem_draws (s : State) (m : Memory) : (s.setMem m).draws = s.draws := rfl

/-! ### setV -/

@[simp] theorem State.setV_mem (s : State) (v : Vector Byte 16) : (s.setV v).mem = s.mem := rfl
@[simp] theorem State.setV_v (s : State) (v : Vector Byte 16) : (s.setV v).v = v := rfl
@[simp] theorem State.setV_i (s : State) (v : Vector Byte 16) : (s.setV v).i = s.i := rfl
@[simp] theorem State.setV_pc (s : State) (v : Vector Byte 16) : (s.setV v).pc = s.pc := rfl
@[simp] theorem State.setV_stack (s : State) (v : Vector Byte 16) : (s.setV v).stack = s.stack := rfl
@[simp] theorem State.setV_dt (s : State) (v : Vector Byte 16) : (s.setV v).dt = s.dt := rfl
@[simp] theorem State.setV_st (s : State) (v : Vector Byte 16) : (s.setV v).st = s.st := rfl
@[simp] theorem State.setV_screen (s : State) (v : Vector Byte 16) : (s.setV v).screen = s.screen := rfl
@[simp] theorem State.setV_keys (s : State) (v : Vector Byte 16) : (s.setV v).keys = s.keys := rfl
@[simp] theorem State.setV_mode (s : State) (v : Vector Byte 16) : (s.setV v).mode = s.mode := rfl
@[simp] theorem State.setV_redraw (s : State) (v : Vector Byte 16) : (s.setV v).redraw = s.redraw := rfl
@[simp] theorem State.setV_loaded (s : State) (v : Vector Byte 16) : (s.setV v).loaded = s.loaded := rfl
@[simp] theorem State.setV_draws (s : State) (v : Vector Byte 16) : (s.setV v).draws = s.draws := rfl

/-! ### setI -/

@[simp] theorem State.setI_mem (s : State) (a : Word) : (s.setI a).mem = s.mem := rfl
@[simp] theorem State.setI_v (s : State) (a : Word) : (s.setI a).v = s.v := rfl
@[simp] theorem State.setI_i (s : State) (a : Word) : (s.setI a).i = a := rfl
@[simp] theorem State.setI_pc (s : State) (a : Word) : (s.setI a).pc = s.pc := rfl
@[simp] theorem State.setI_stack (s : State) (a : Word) : (s.setI a).stack = s.stack := rfl
@[simp] theorem State.setI_dt (s : State) (a : Word) : (s.setI a).dt = s.dt := rfl
@[simp] theorem State.setI_st (s : State) (a : Word) : (s.setI a).st = s.st := rfl
@[simp] theorem State.setI_screen (s : State) (a : Word) : (s.setI a).screen = s.screen := rfl
@[simp] theorem State.setI_keys (s : State) (a : Word) : (s.setI a).keys = s.keys := rfl
@[simp] theorem State.setI_mode (s : State) (a : Word) : (s.setI a).mode = s.mode := rfl
@[simp] theorem State.setI_redraw (s : State) (a : Word) : (s.setI a).redraw = s.redraw := rfl
@[simp] theorem State.setI_loaded (s : State) (a : Word) : (s.setI a).loaded = s.loaded := rfl
@[simp] theorem State.setI_draws (s : State) (a : Word) : (s.setI a).draws = s.draws := rfl

/-! ### setPc -/

@[simp] theorem State.setPc_mem (s : State) (a : Word) : (s.setPc a).mem = s.mem := rfl
@[simp] theorem State.setPc_v (s : State) (a : Word) : (s.setPc a).v = s.v := rfl
@[simp] theorem State.setPc_i (s : State) (a : Word) : (s.setPc a).i = s.i := rfl
@[simp] theorem State.setPc_pc (s : State) (a : Word) : (s.setPc a).pc = a := rfl
@[simp] theorem State.setPc_stack (s : State) (a : Word) : (s.setPc a).stack = s.stack := rfl
@[simp] theorem State.setPc_dt (s : State) (a : Word) : (s.setPc a).dt = s.dt := rfl
@[simp] theorem State.setPc_st (s : State) (a : Word) : (s.setPc a).st = s.st := rfl
@[simp] theorem State.setPc_screen (s : State) (a : Word) : (s.setPc a).screen = s.screen := rfl
@[simp] theorem State.setPc_keys (s : State) (a : Word) : (s.setPc a).keys = s.keys := rfl
@[simp] theorem State.setPc_mode (s : State) (a : Word) : (s.setPc a).mode = s.mode := rfl
@[simp] theorem State.setPc_redraw (s : State) (a : Word) : (s.setPc a).redraw = s.redraw := rfl
@[simp] theorem State.setPc_loaded (s : State) (a : Word) : (s.setPc a).loaded = s.loaded := rfl
@[simp] theorem State.setPc_draws (s : State) (a : Word) : (s.setPc a).draws = s.draws := rfl

/-! ### setStack -/

@[simp] theorem State.setStack_mem (s : State) (l : List Word) : (s.setStack l).mem = s.mem := rfl
@[simp] theorem State.setStack_v (s : State) (l : List Word) : (s.setStack l).v = s.v := rfl
@[simp] theorem State.setStack_i (s : State) (l : List Word) : (s.setStack l).i = s.i := rfl
@[simp] theorem State.setStack_pc (s : State) (l : List Word) : (s.setStack l).pc = s.pc := rfl
@[simp] theorem State.setStack_stack (s : State) (l : List Word) : (s.setStack l).stack = l := rfl
@[simp] theorem State.setStack_dt (s : State) (l : List Word) : (s.setStack l).dt = s.dt := rfl
@[simp] theorem State.setStack_st (s : State) (l : List Word) : (s.setStack l).st = s.st := rfl
@[simp] theorem State.setStack_screen (s : State) (l : List Word) : (s.setStack l).screen = s.screen := rfl
@[simp] theorem State.setStack_keys (s : State) (l : List Word) : (s.setStack l).keys = s.keys := rfl
@[simp] theorem State.setStack_mode (s : State) (l : List Word) : (s.setStack l).mode = s.mode := rfl
@[simp] theorem State.setStack_redraw (s : State) (l : List Word) : (s.setStack l).redraw = s.redraw := rfl
@[simp] theorem State.setStack_loaded (s : State) (l : List Word) : (s.setStack l).loaded = s.loaded := rfl
@[simp] theorem State.setStack_draws (s : State) (l : List Word) : (s.setStack l).draws = s.draws := rfl

/-! ### setDt -/

@[simp] theorem State.setDt_mem (s : State) (b : Byte) : (s.setDt b).mem = s.mem := rfl
@[simp] theorem State.setDt_v (s : State) (b : Byte) : (s.setDt b).v = s.v := rfl
@[simp] theorem State.setDt_i (s : State) (b : Byte) : (s.setDt b).i = s.i := rfl
@[simp] theorem State.setDt_pc (s : State) (b : Byte) : (s.setDt b).pc = s.pc := rfl
@[simp] theorem State.setDt_stack (s : State) (b : Byte) : (s.setDt b).stack = s.stack := rfl
@[simp] theorem State.setDt_dt (s : State) (b : Byte) : (s.setDt b).dt = b := rfl
@[simp] theorem State.setDt_st (s : State) (b : Byte) : (s.setDt b).st = s.st := rfl
@[simp] theorem State.setDt_screen (s : State) (b : Byte) : (s.setDt b).screen = s.screen := rfl
@[simp] theorem State.setDt_keys (s : State) (b : Byte) : (s.setDt b).keys = s.keys := rfl
@[simp] theorem State.setDt_mode (s : State) (b : Byte) : (s.setDt b).mode = s.mode := rfl
@[simp] theorem State.setDt_redraw (s : State) (b : Byte) : (s.setDt b).redraw = s.redraw := rfl
@[simp] theorem State.setDt_loaded (s : State) (b : Byte) : (s.setDt b).loaded = s.loaded := rfl
@[simp] theorem State.setDt_draws (s : State) (b : Byte) : (s.setDt b).draws = s.draws := rfl

/-! ### setSt -/

@[simp] theorem State.setSt_mem (s : State) (b : Byte) : (s.setSt b).mem = s.mem := rfl
@[simp] theorem State.setSt_v (s : State) (b : Byte) : (s.setSt b).v = s.v := rfl
@[simp] theorem State.setSt_i (s : State) (b : Byte) : (s.setSt b).i = s.i := rfl
@[simp] theorem State.setSt_pc (s : State) (b : Byte) : (s.setSt b).pc = s.pc := rfl
@[simp] theorem State.setSt_stack (s : State) (b : Byte) : (s.setSt b).stack = s.stack := rfl
@[simp] theorem State.setSt_dt (s : State) (b : Byte) : (s.setSt b).dt = s.dt := rfl
@[simp] theorem State.setSt_st (s : State) (b : Byte) : (s.setSt b).st = b := rfl
@[simp] theorem State.setSt_screen (s : State) (b : Byte) : (s.setSt b).screen = s.screen := rfl
@[simp] theorem State.setSt_keys (s : State) (b : Byte) : (s.setSt b).keys = s.keys := rfl
@[simp] theorem State.setSt_mode (s : State) (b : Byte) : (s.setSt b).mode = s.mode := rfl
@[simp] theorem State.setSt_redraw (s : State) (b : Byte) : (s.setSt b).redraw = s.redraw := rfl
@[simp] theorem State.setSt_loaded (s : State) (b : Byte) : (s.setSt b).loaded = s.loaded := rfl
@[simp] theorem State.setSt_draws (s : State) (b : Byte) : (s.setSt b).draws = s.draws := rfl

/-! ### setScreen -/

@[simp] theorem State.setScreen_mem (s : State) (p : Screen) : (s.setScreen p).mem = s.mem := rfl
@[simp] theorem State.setScreen_v (s : State) (p : Screen) : (s.setScreen p).v = s.v := rfl
@[simp] theorem State.setScreen_i (s : State) (p : Screen) : (s.setScreen p).i = s.i := rfl
@[simp] theorem State.setScreen_pc (s : State) (p : Screen) : (s.setScreen p).pc = s.pc := rfl
@[simp] theorem State.setScreen_stack (s : State) (p : Screen) : (s.setScreen p).stack = s.stack := rfl
@[simp] theorem State.setScreen_dt (s : State) (p : Screen) : (s.setScreen p).dt = s.dt := rfl
@[simp] theorem State.setScreen_st (s : State) (p : Screen) : (s.setScreen p).st = s.st := rfl
@[simp] theorem State.setScreen_screen (s : State) (p : Screen) : (s.setScreen p).screen = p := rfl
@[simp] theorem State.setScreen_keys (s : State) (p : Screen) : (s.setScreen p).keys = s.keys := rfl
@[simp] theorem State.setScreen_mode (s : State) (p : Screen) : (s.setScreen p).mode = s.mode := rfl
@[simp] theorem State.setScreen_redraw (s : State) (p : Screen) : (s.setScreen p).redraw = s.redraw := rfl
@[simp] theorem State.setScreen_loaded (s : State) (p : Screen) : (s.setScreen p).loaded = s.loaded := rfl
@[simp] theorem State.setScreen_draws (s : State) (p : Screen) : (s.setScreen p).draws = s.draws := rfl

/-! ### setKeys -/

@[simp] theorem State.setKeys_mem (s : State) (k : Vector Bool 16) : (s.setKeys k).mem = s.mem := rfl
@[simp] theorem State.setKeys_v (s : State) (k : Vector Bool 16) : (s.setKeys k).v = s.v := rfl
@[simp] theorem State.setKeys_i (s : State) (k : Vector Bool 16) : (s.setKeys k).i = s.i := rfl
@[simp] theorem State.setKeys_pc (s : State) (k : Vector Bool 16) : (s.setKeys k).pc = s.pc := rfl
@[simp] theorem State.setKeys_stack (s : State) (k : Vector Bool 16) : (s.setKeys k).stack = s.stack := rfl
@[simp] theorem State.setKeys_dt (s : State) (k : Vector Bool 16) : (s.setKeys k).dt = s.dt := rfl
@[simp] theorem State.setKeys_st (s : State) (k : Vector Bool 16) : (s.setKeys k).st = s.st := rfl
@[simp] theorem State.setKeys_screen (s : State) (k : Vector Bool 16) : (s.setKeys k).screen = s.screen := rfl
@[simp] theorem State.setKeys_keys (s : State) (k : Vector Bool 16) : (s.setKeys k).keys = k := rfl
@[simp] theorem State.setKeys_mode (s : State) (k : Vector Bool 16) : (s.setKeys k).mode = s.mode := rfl
@[simp] theorem State.setKeys_redraw (s : State) (k : Vector Bool 16) : (s.setKeys k).redraw = s.redraw := rfl
@[simp] theorem State.setKeys_loaded (s : State) (k : Vector Bool 16) : (s.setKeys k).loaded = s.loaded := rfl
@[simp] theorem State.setKeys_draws (s : State) (k : Vector Bool 16) : (s.setKeys k).draws = s.draws := rfl

/-! ### setMode -/

@[simp] theorem State.setMode_mem (s : State) (m : Mode) : (s.setMode m).mem = s.mem := rfl
@[simp] theorem State.setMode_v (s : State) (m : Mode) : (s.setMode m).v = s.v := rfl
@[simp] theorem State.setMode_i (s : State) (m : Mode) : (s.setMode m).i = s.i := rfl
@[simp] theorem State.setMode_pc (s : State) (m : Mode) : (s.setMode m).pc = s.pc := rfl
@[simp] theorem State.setMode_stack (s : State) (m : Mode) : (s.setMode m).stack = s.stack := rfl
@[simp] theorem State.setMode_dt (s : State) (m : Mode) : (s.setMode m).dt = s.dt := rfl
@[simp] theorem State.setMode_st (s : State) (m : Mode) : (s.setMode m).st = s.st := rfl
@[simp] theorem State.setMode_screen (s : State) (m : Mode) : (s.setMode m).screen = s.screen := rfl
@[simp] theorem State.setMode_keys (s : State) (m : Mode) : (s.setMode m).keys = s.keys := rfl
@[simp] theorem State.setMode_mode (s : State) (m : Mode) : (s.setMode m).mode = m := rfl
@[simp] theorem State.setMode_redraw (s : State) (m : Mode) : (s.setMode m).redraw = s.redraw := rfl
@[simp] theorem State.setMode_loaded (s : State) (m : Mode) : (s.setMode m).loaded = s.loaded := rfl
@[simp] theorem State.setMode_draws (s : State) (m : Mode) : (s.setMode m).draws = s.draws := rfl

/-! ### setRedraw -/

@[simp] theorem State.setRedraw_mem (s : State) (b : Bool) : (s.setRedraw b).mem = s.mem := rfl
@[simp] theorem State.setRedraw_v (s : State) (b : Bool) : (s.setRedraw b).v = s.v := rfl
@[simp] theorem State.setRedraw_i (s : State) (b : Bool) : (s.setRedraw b).i = s.i := rfl
@[simp] theorem State.setRedraw_pc (s : State) (b : Bool) : (s.setRedraw b).pc = s.pc := rfl
@[simp] theorem State.setRedraw_stack (s : State) (b : Bool) : (s.setRedraw b).stack = s.stack := rfl
@[simp] theorem State.setRedraw_dt (s : State) (b : Bool) : (s.setRedraw b).dt = s.dt := rfl
@[simp] theorem State.setRedraw_st (s : State) (b : Bool) : (s.setRedraw b).st = s.st := rfl
@[simp] theorem State.setRedraw_screen (s : State) (b : Bool) : (s.setRedraw b).screen = s.screen := rfl
@[simp] theorem State.setRedraw_keys (s : State) (b : Bool) : (s.setRedraw b).keys = s.keys := rfl
@[simp] theorem State.setRedraw_mode (s : State) (b : Bool) : (s.setRedraw b).mode = s.mode := rfl
@[simp] theorem State.setRedraw_redraw (s : State) (b : Bool) : (s.setRedraw b).redraw = b := rfl
@[simp] theorem State.setRedraw_loaded (s : State) (b : Bool) : (s.setRedraw b).loaded = s.loaded := rfl
@[simp] theorem State.setRedraw_draws (s : State) (b : Bool) : (s.setRedraw b).draws = s.draws := rfl

/-! ### setLoaded -/

@[simp] theorem State.setLoaded_mem (s : State) (b : Bool) : (s.setLoaded b).mem = s.mem := rfl
@[simp] theorem State.setLoaded_v (s : State) (b : Bool) : (s.setLoaded b).v = s.v := rfl
@[simp] theorem State.setLoaded_i (s : State) (b : Bool) : (s.setLoaded b).i = s.i := rfl
@[simp] theorem State.setLoaded_pc (s : State) (b : Bool) : (s.setLoaded b).pc = s.pc := rfl
@[simp] theorem State.setLoaded_stack (s : State) (b : Bool) : (s.setLoaded b).stack = s.stack := rfl
@[simp] theorem State.setLoaded_dt (s : State) (b : Bool) : (s.setLoaded b).dt = s.dt := rfl
@[simp] theorem State.setLoaded_st (s : State) (b : Bool) : (s.setLoaded b).st = s.st := rfl
@[simp] theorem State.setLoaded_screen (s : State) (b : Bool) : (s.setLoaded b).screen = s.screen := rfl
@[simp] theorem State.setLoaded_keys (s : State) (b : Bool) : (s.setLoaded b).keys = s.keys := rfl
@[simp] theorem State.setLoaded_mode (s : State) (b : Bool) : (s.setLoaded b).mode = s.mode := rfl
@[simp] theorem State.setLoaded_redraw (s : State) (b : Bool) : (s.setLoaded b).redraw = s.redraw := rfl
@[simp] theorem State.setLoaded_loaded (s : State) (b : Bool) : (s.setLoaded b).loaded = b := rfl
@[simp] theorem State.setLoaded_draws (s : State) (b : Bool) : (s.setLoaded b).draws = s.draws := rfl

/-! ### setDraws -/

@[simp] theorem State.setDraws_mem (s : State) (n : Nat) : (s.setDraws n).mem = s.mem := rfl
@[simp] theorem State.setDraws_v (s : State) (n : Nat) : (s.setDraws n).v = s.v := rfl
@[simp] theorem State.setDraws_i (s : State) (n : Nat) : (s.setDraws n).i = s.i := rfl
@[simp] theorem State.setDraws_pc (s : State) (n : Nat) : (s.setDraws n).pc = s.pc := rfl
@[simp] theorem State.setDraws_stack (s : State) (n : Nat) : (s.setDraws n).stack = s.stack := rfl
@[simp] theorem State.setDraws_dt (s : State) (n : Nat) : (s.setDraws n).dt = s.dt := rfl
@[simp] theorem State.setDraws_st (s : State) (n : Nat) : (s.setDraws n).st = s.st := rfl
@[simp] theorem State.setDraws_screen (s : State) (n : Nat) : (s.setDraws n).screen = s.screen := rfl
@[simp] theorem State.setDraws_keys (s : State) (n : Nat) : (s.setDraws n).keys = s.keys := rfl
@[simp] theorem State.setDraws_mode (s : State) (n : Nat) : (s.setDraws n).mode = s.mode := rfl
@[simp] theorem State.setDraws_redraw (s : State) (n : Nat) : (s.setDraws n).redraw = s.redraw := rfl
@[simp] theorem State.setDraws_loaded (s : State) (n : Nat) : (s.setDraws n).loaded = s.loaded := rfl
@[simp] theorem State.setDraws_draws (s : State) (n : Nat) : (s.setDraws n).draws = n := rfl

/-! ### setReg, halt, advance -/

@[simp] theorem State.setReg_mem (s : State) (r : Reg) (b : Byte) : (s.setReg r b).mem = s.mem := rfl
@[simp] theorem State.setReg_i (s : State) (r : Reg) (b : Byte) : (s.setReg r b).i = s.i := rfl
@[simp] theorem State.setReg_pc (s : State) (r : Reg) (b : Byte) : (s.setReg r b).pc = s.pc := rfl
@[simp] theorem State.setReg_stack (s : State) (r : Reg) (b : Byte) : (s.setReg r b).stack = s.stack := rfl
@[simp] theorem State.setReg_dt (s : State) (r : Reg) (b : Byte) : (s.setReg r b).dt = s.dt := rfl
@[simp] theorem State.setReg_st (s : State) (r : Reg) (b : Byte) : (s.setReg r b).st = s.st := rfl
@[simp] theorem State.setReg_screen (s : State) (r : Reg) (b : Byte) : (s.setReg r b).screen = s.screen := rfl
@[simp] theorem State.setReg_keys (s : State) (r : Reg) (b : Byte) : (s.setReg r b).keys = s.keys := rfl
@[simp] theorem State.setReg_mode (s : State) (r : Reg) (b : Byte) : (s.setReg r b).mode = s.mode := rfl
@[simp] theorem State.setReg_redraw (s : State) (r : Reg) (b : Byte) : (s.setReg r b).redraw = s.redraw := rfl
@[simp] theorem State.setReg_loaded (s : State) (r : Reg) (b : Byte) : (s.setReg r b).loaded = s.loaded := rfl
@[simp] theorem State.setReg_draws (s : State) (r : Reg) (b : Byte) : (s.setReg r b).draws = s.draws := rfl
@[simp] theorem State.halt_mem (s : State) (f : FaultRecord) : (s.halt f).mem = s.mem := rfl
@[simp] theorem State.halt_v (s : State) (f : FaultRecord) : (s.halt f).v = s.v := rfl
@[simp] theorem State.halt_i (s : State) (f : FaultRecord) : (s.halt f).i = s.i := rfl
@[simp] theorem State.halt_pc (s : State) (f : FaultRecord) : (s.halt f).pc = s.pc := rfl
@[simp] theorem State.halt_stack (s : State) (f : FaultRecord) : (s.halt f).stack = s.stack := rfl
@[simp] theorem State.halt_dt (s : State) (f : FaultRecord) : (s.halt f).dt = s.dt := rfl
@[simp] theorem State.halt_st (s : State) (f : FaultRecord) : (s.halt f).st = s.st := rfl
@[simp] theorem State.halt_screen (s : State) (f : FaultRecord) : (s.halt f).screen = s.screen := rfl
@[simp] theorem State.halt_keys (s : State) (f : FaultRecord) : (s.halt f).keys = s.keys := rfl
@[simp] theorem State.halt_mode (s : State) (f : FaultRecord) : (s.halt f).mode = .halted f := rfl
@[simp] theorem State.halt_redraw (s : State) (f : FaultRecord) : (s.halt f).redraw = s.redraw := rfl
@[simp] theorem State.halt_loaded (s : State) (f : FaultRecord) : (s.halt f).loaded = s.loaded := rfl
@[simp] theorem State.halt_draws (s : State) (f : FaultRecord) : (s.halt f).draws = s.draws := rfl
@[simp] theorem State.advance_mem (s : State) : s.advance.mem = s.mem := rfl
@[simp] theorem State.advance_v (s : State) : s.advance.v = s.v := rfl
@[simp] theorem State.advance_i (s : State) : s.advance.i = s.i := rfl
@[simp] theorem State.advance_pc (s : State) : s.advance.pc = s.pc + 2 := rfl
@[simp] theorem State.advance_stack (s : State) : s.advance.stack = s.stack := rfl
@[simp] theorem State.advance_dt (s : State) : s.advance.dt = s.dt := rfl
@[simp] theorem State.advance_st (s : State) : s.advance.st = s.st := rfl
@[simp] theorem State.advance_screen (s : State) : s.advance.screen = s.screen := rfl
@[simp] theorem State.advance_keys (s : State) : s.advance.keys = s.keys := rfl
@[simp] theorem State.advance_mode (s : State) : s.advance.mode = s.mode := rfl
@[simp] theorem State.advance_redraw (s : State) : s.advance.redraw = s.redraw := rfl
@[simp] theorem State.advance_loaded (s : State) : s.advance.loaded = s.loaded := rfl
@[simp] theorem State.advance_draws (s : State) : s.advance.draws = s.draws := rfl

/-! ### setFlagThen: only `v` -/

@[simp] theorem State.setFlagThen_mem (s : State) (a : Byte) (r : Reg) (b : Byte) : (s.setFlagThen a r b).mem = s.mem := rfl
@[simp] theorem State.setFlagThen_i (s : State) (a : Byte) (r : Reg) (b : Byte) : (s.setFlagThen a r b).i = s.i := rfl
@[simp] theorem State.setFlagThen_pc (s : State) (a : Byte) (r : Reg) (b : Byte) : (s.setFlagThen a r b).pc = s.pc := rfl
@[simp] theorem State.setFlagThen_stack (s : State) (a : Byte) (r : Reg) (b : Byte) : (s.setFlagThen a r b).stack = s.stack := rfl
@[simp] theorem State.setFlagThen_dt (s : State) (a : Byte) (r : Reg) (b : Byte) : (s.setFlagThen a r b).dt = s.dt := rfl
@[simp] theorem State.setFlagThen_st (s : State) (a : Byte) (r : Reg) (b : Byte) : (s.setFlagThen a r b).st = s.st := rfl
@[simp] theorem State.setFlagThen_screen (s : State) (a : Byte) (r : Reg) (b : Byte) : (s.setFlagThen a r b).screen = s.screen := rfl
@[simp] theorem State.setFlagThen_keys (s : State) (a : Byte) (r : Reg) (b : Byte) : (s.setFlagThen a r b).keys = s.keys := rfl
@[simp] theorem State.setFlagThen_mode (s : State) (a : Byte) (r : Reg) (b : Byte) : (s.setFlagThen a r b).mode = s.mode := rfl
@[simp] theorem State.setFlagThen_redraw (s : State) (a : Byte) (r : Reg) (b : Byte) : (s.setFlagThen a r b).redraw = s.redraw := rfl
@[simp] theorem State.setFlagThen_loaded (s : State) (a : Byte) (r : Reg) (b : Byte) : (s.setFlagThen a r b).loaded = s.loaded := rfl
@[simp] theorem State.setFlagThen_draws (s : State) (a : Byte) (r : Reg) (b : Byte) : (s.setFlagThen a r b).draws = s.draws := rfl

/-! ### skip: only `pc` -/

theorem State.skip_eq (s : State) (c : Bool) : s.skip c = s.setPc (if c then s.pc + 2 else s.pc) := by
  cases c <;> rfl

@[simp] theorem State.skip_pc (s : State) (c : Bool) : (s.skip c).pc = if c then s.pc + 2 else s.pc := by
  rw [State.skip_eq]; rfl

@[simp] theorem State.skip_mem (s : State) (c : Bool) : (s.skip c).mem = s.mem := by rw [State.skip_eq]; rfl
@[simp] theorem State.skip_v (s : State) (c : Bool) : (s.skip c).v = s.v := by rw [State.skip_eq]; rfl
@[simp] theorem State.skip_i (s : State) (c : Bool) : (s.skip c).i = s.i := by rw [State.skip_eq]; rfl
@[simp] theorem State.skip_stack (s : State) (c : Bool) : (s.skip c).stack = s.stack := by rw [State.skip_eq]; rfl
@[simp] theorem State.skip_dt (s : State) (c : Bool) : (s.skip c).dt = s.dt := by rw [State.skip_eq]; rfl
@[simp] theorem State.skip_st (s : State) (c : Bool) : (s.skip c).st = s.st := by rw [State.skip_eq]; rfl
@[simp] theorem State.skip_screen (s : State) (c : Bool) : (s.skip c).screen = s.screen := by rw [State.skip_eq]; rfl
@[simp] theorem State.skip_keys (s : State) (c : Bool) : (s.skip c).keys = s.keys := by rw [State.skip_eq]; rfl
@[simp] theorem State.skip_mode (s : State) (c : Bool) : (s.skip c).mode = s.mode := by rw [State.skip_eq]; rfl
@[simp] theorem State.skip_redraw (s : State) (c : Bool) : (s.skip c).redraw = s.redraw := by rw [State.skip_eq]; rfl
@[simp] theorem State.skip_loaded (s : State) (c : Bool) : (s.skip c).loaded = s.loaded := by rw [State.skip_eq]; rfl
@[simp] theorem State.skip_draws (s : State) (c : Bool) : (s.skip c).draws = s.draws := by rw [State.skip_eq]; rfl

/-! ### reg sees only `v` -/

theorem State.reg_congr (s t : State) (h : s.v = t.v) (r : Reg) : s.reg r = t.reg r := by
  unfold State.reg; simp only [h]

@[simp] theorem State.reg_setMem (s : State) (m : Memory) (r : Reg) : (s.setMem m).reg r = s.reg r := rfl
@[simp] theorem State.reg_setI (s : State) (a : Word) (r : Reg) : (s.setI a).reg r = s.reg r := rfl
@[simp] theorem State.reg_setPc (s : State) (a : Word) (r : Reg) : (s.setPc a).reg r = s.reg r := rfl
@[simp] theorem State.reg_setStack (s : State) (l : List Word) (r : Reg) : (s.setStack l).reg r = s.reg r := rfl
@[simp] theorem State.reg_setDt (s : State) (b : Byte) (r : Reg) : (s.setDt b).reg r = s.reg r := rfl
@[simp] theorem State.reg_setSt (s : State) (b : Byte) (r : Reg) : (s.setSt b).reg r = s.reg r := rfl
@[simp] theorem State.reg_setScreen (s : State) (p : Screen) (r : Reg) : (s.setScreen p).reg r = s.reg r := rfl
@[simp] theorem State.reg_setKeys (s : State) (k : Vector Bool 16) (r : Reg) : (s.setKeys k).reg r = s.reg r := rfl
@[simp] theorem State.reg_setMode (s : State) (m : Mode) (r : Reg) : (s.setMode m).reg r = s.reg r := rfl
@[simp] theorem State.reg_setRedraw (s : State) (b : Bool) (r : Reg) : (s.setRedraw b).reg r = s.reg r := rfl
@[simp] theorem State.reg_setLoaded (s : State) (b : Bool) (r : Reg) : (s.setLoaded b).reg r = s.reg r := rfl
@[simp] theorem State.reg_setDraws (s : State) (n : Nat) (r : Reg) : (s.setDraws n).reg r = s.reg r := rfl
@[simp] theorem State.reg_halt (s : State) (f : FaultRecord) (r : Reg) : (s.halt f).reg r = s.reg r := rfl
@[simp] theorem State.reg_advance (s : State) (r : Reg) : s.advance.reg r = s.reg r := rfl
@[simp] theorem State.reg_skip (s : State) (c : Bool) (r : Reg) : (s.skip c).reg r = s.reg r := by rw [State.skip_eq]; rfl

/-- Two states are equal when all their fields are. -/
theorem State.eq_of_fields {s t : State} (hmem : s.mem = t.mem) (hv : s.v = t.v) (hi : s.i = t.i) (hpc : s.pc = t.pc)
    (hstack : s.stack = t.stack) (hdt : s.dt = t.dt) (hst : s.st = t.st) (hscreen : s.screen = t.screen)
    (hkeys : s.keys = t.keys) (hmode : s.mode = t.mode) (hredraw : s.redraw = t.redraw) (hloaded : s.loaded = t.loaded)
    (hdraws : s.draws = t.draws) : s = t := by
  cases s; cases t; simp_all

end Sys2Proof.Machine
end

