-- ==== Sys2Proof/Laws/Memory.lean ====
section
/-! SUPPORT. The laws of Memory: a read after a write, the canonical form every operation keeps, and that two canonical
memories that read alike are equal data. -/

namespace Sys2Proof.Machine

theorem Memory.read_erase (m : Memory) (a b : Nat) :
    (m.erase a).read b = if b = a then Memory.initial b else m.read b := by
  induction m with
  | nil => simp [Memory.erase, Memory.read]
  | cons c rest ih =>
    obtain ⟨k, u⟩ := c
    unfold Memory.erase at ih ⊢
    by_cases hk : k = a
    · simp only [List.filter_cons, hk, bne_self_eq_false, Bool.false_eq_true, if_false, ih, Memory.read]
      split <;> rfl
    · simp only [List.filter_cons, bne_iff_ne, ne_eq, hk, not_false_eq_true, if_true, Memory.read, ih]
      by_cases hb : b = k
      · simp [hb, hk]
      · simp [hb]

theorem Memory.read_insert (m : Memory) (a b : Nat) (u : Byte) :
    (m.insert a u).read b = if b = a then u else m.read b := by
  induction m with
  | nil => rfl
  | cons c rest ih =>
    obtain ⟨k, w⟩ := c
    unfold Memory.insert
    split
    · rfl
    · split
      · next h => subst h; simp only [Memory.read]; split <;> rfl
      · next h =>
        simp only [Memory.read, ih]
        by_cases hb : b = k
        · rw [if_pos hb, if_pos hb, if_neg (by omega)]
        · simp [hb]

/-- A read after a write: the value written at its address, and every other address as before. -/
@[simp] theorem Memory.read_write (m : Memory) (a b : Nat) (u : Byte) :
    (m.write a u).read b = if b = a then u else m.read b := by
  unfold Memory.write
  split
  · next h => rw [Memory.read_erase, h]; split
              · next hb => rw [hb]
              · rfl
  · exact Memory.read_insert m a b u

/-- A read after a run of writes. -/
theorem Memory.read_writeBytes (m : Memory) (base a : Nat) (bytes : List Byte) :
    (m.writeBytes base bytes).read a =
      if h : base ≤ a ∧ a < base + bytes.length then bytes[a - base]'(by omega) else m.read a := by
  induction bytes generalizing m base with
  | nil => simp [Memory.writeBytes]
  | cons u rest ih =>
    rw [Memory.writeBytes, ih]
    by_cases h1 : base + 1 ≤ a ∧ a < base + 1 + rest.length
    · have h2 : base ≤ a ∧ a < base + (u :: rest).length := by simp only [List.length_cons]; omega
      rw [dif_pos h1, dif_pos h2]
      have : a - base = (a - (base + 1)) + 1 := by omega
      simp [this]
    · rw [dif_neg h1, Memory.read_write]
      by_cases h3 : a = base
      · subst h3; simp
      · have h2 : ¬ (base ≤ a ∧ a < base + (u :: rest).length) := by simp only [List.length_cons]; omega
        rw [if_neg h3, dif_neg h2]

/-- A run of writes leaves every byte outside it alone. -/
theorem Memory.read_writeBytes_outside (m : Memory) (base a : Nat) (bytes : List Byte)
    (h : a < base ∨ base + bytes.length ≤ a) : (m.writeBytes base bytes).read a = m.read a := by
  rw [Memory.read_writeBytes, dif_neg (by omega)]

@[simp] theorem Memory.length_readBytes (m : Memory) (base n : Nat) : (m.readBytes base n).length = n := by
  simp [Memory.readBytes]

@[simp] theorem Memory.getElem_readBytes (m : Memory) (base n k : Nat) (h : k < (m.readBytes base n).length) :
    (m.readBytes base n)[k] = m.read (base + k) := by
  simp [Memory.readBytes]

/-! ### The canonical form -/

theorem Memory.wfFrom_cons (lo a : Nat) (u : Byte) (rest : Memory) :
    Memory.wfFrom lo ((a, u) :: rest) = true ↔
      lo ≤ a ∧ a < 4096 ∧ u ≠ Memory.initial a ∧ Memory.wfFrom (a + 1) rest = true := by
  simp [Memory.wfFrom, and_assoc]

theorem Memory.wfFrom_weaken {lo lo' : Nat} (h : lo' ≤ lo) {m : Memory} (hm : Memory.wfFrom lo m = true) :
    Memory.wfFrom lo' m = true := by
  cases m with
  | nil => rfl
  | cons c rest =>
    obtain ⟨a, u⟩ := c
    rw [Memory.wfFrom_cons] at hm ⊢
    exact ⟨by omega, hm.2⟩

theorem Memory.wfFrom_erase {lo : Nat} {m : Memory} (a : Nat) (hm : Memory.wfFrom lo m = true) :
    Memory.wfFrom lo (m.erase a) = true := by
  induction m generalizing lo with
  | nil => rfl
  | cons c rest ih =>
    obtain ⟨k, u⟩ := c
    rw [Memory.wfFrom_cons] at hm
    obtain ⟨h1, h2, h3, h4⟩ := hm
    unfold Memory.erase at ih ⊢
    rw [List.filter_cons]
    split
    · exact (Memory.wfFrom_cons ..).2 ⟨h1, h2, h3, ih h4⟩
    · exact Memory.wfFrom_weaken (by omega) (ih h4)

theorem Memory.wfFrom_insert {lo : Nat} {m : Memory} {a : Nat} {u : Byte} (hlo : lo ≤ a) (ha : a < 4096)
    (hu : u ≠ Memory.initial a) (hm : Memory.wfFrom lo m = true) : Memory.wfFrom lo (m.insert a u) = true := by
  induction m generalizing lo with
  | nil => exact (Memory.wfFrom_cons ..).2 ⟨hlo, ha, hu, rfl⟩
  | cons c rest ih =>
    obtain ⟨k, w⟩ := c
    rw [Memory.wfFrom_cons] at hm
    obtain ⟨h1, h2, h3, h4⟩ := hm
    unfold Memory.insert
    split
    · exact (Memory.wfFrom_cons ..).2 ⟨hlo, ha, hu, (Memory.wfFrom_cons ..).2 ⟨by omega, h2, h3, h4⟩⟩
    · split
      · next h => subst h; exact (Memory.wfFrom_cons ..).2 ⟨hlo, ha, hu, h4⟩
      · exact (Memory.wfFrom_cons ..).2 ⟨h1, h2, h3, ih (by omega) h4⟩

/-- A write to an address of Memory keeps the canonical form. -/
theorem Memory.wf_write {m : Memory} {a : Nat} (u : Byte) (ha : a < 4096) (hm : m.wf = true) : (m.write a u).wf = true := by
  unfold Memory.write Memory.wf at *
  split
  · exact Memory.wfFrom_erase a hm
  · next h => exact Memory.wfFrom_insert (Nat.zero_le a) ha h hm

/-- A run of writes within Memory keeps the canonical form. -/
theorem Memory.wf_writeBytes {m : Memory} {base : Nat} {bytes : List Byte} (h : base + bytes.length ≤ 4096)
    (hm : m.wf = true) : (m.writeBytes base bytes).wf = true := by
  induction bytes generalizing m base with
  | nil => exact hm
  | cons u rest ih =>
    simp only [List.length_cons] at h
    exact ih (by omega) (Memory.wf_write u (by omega) hm)

theorem Memory.read_of_lt_wfFrom {lo a : Nat} {m : Memory} (hm : Memory.wfFrom lo m = true) (h : a < lo) :
    m.read a = Memory.initial a := by
  induction m generalizing lo with
  | nil => rfl
  | cons c rest ih =>
    obtain ⟨k, u⟩ := c
    rw [Memory.wfFrom_cons] at hm
    rw [Memory.read, if_neg (by omega)]
    exact ih hm.2.2.2 (by omega)

theorem Memory.ext_wfFrom {lo : Nat} {m m' : Memory} (hm : Memory.wfFrom lo m = true) (hm' : Memory.wfFrom lo m' = true)
    (h : ∀ a, m.read a = m'.read a) : m = m' := by
  induction m generalizing lo m' with
  | nil =>
    cases m' with
    | nil => rfl
    | cons c rest =>
      obtain ⟨k, u⟩ := c
      rw [Memory.wfFrom_cons] at hm'
      have := h k
      simp only [Memory.read, if_true] at this
      exact absurd this.symm hm'.2.2.1
  | cons c rest ih =>
    obtain ⟨k, u⟩ := c
    rw [Memory.wfFrom_cons] at hm
    cases m' with
    | nil =>
      have := h k
      simp only [Memory.read, if_true] at this
      exact absurd this hm.2.2.1
    | cons c' rest' =>
      obtain ⟨k', u'⟩ := c'
      rw [Memory.wfFrom_cons] at hm'
      obtain ⟨-, -, hu, hr⟩ := hm
      obtain ⟨-, -, hu', hr'⟩ := hm'
      have hk : k = k' := by
        rcases Nat.lt_trichotomy k k' with hlt | heq | hgt
        · have := h k
          rw [Memory.read, if_pos rfl, Memory.read, if_neg (by omega), Memory.read_of_lt_wfFrom hr' (by omega)] at this
          exact absurd this hu
        · exact heq
        · have := h k'
          rw [Memory.read, if_neg (by omega), Memory.read_of_lt_wfFrom hr (by omega), Memory.read, if_pos rfl] at this
          exact absurd this.symm hu'
      subst hk
      have hval := h k
      simp only [Memory.read, if_true] at hval
      subst hval
      have hrest : rest = rest' := by
        refine ih hr hr' (fun a => ?_)
        by_cases ha : a = k
        · subst ha
          rw [Memory.read_of_lt_wfFrom hr (by omega), Memory.read_of_lt_wfFrom hr' (by omega)]
        · have := h a
          rwa [Memory.read, if_neg ha, Memory.read, if_neg ha] at this
      rw [hrest]

/-- Two canonical memories that read alike everywhere are the same data. -/
theorem Memory.ext_wf {m m' : Memory} (hm : m.wf = true) (hm' : m'.wf = true) (h : ∀ a, m.read a = m'.read a) : m = m' :=
  Memory.ext_wfFrom hm hm' h

/-- Nothing exists above 0xFFF: a canonical memory lists no such address. -/
theorem Memory.read_above {m : Memory} (hm : m.wf = true) {a : Nat} (ha : 4096 ≤ a) : m.read a = Memory.initial a := by
  unfold Memory.wf at hm
  generalize 0 = lo at hm
  induction m generalizing lo with
  | nil => rfl
  | cons c rest ih =>
    obtain ⟨k, u⟩ := c
    rw [Memory.wfFrom_cons] at hm
    rw [Memory.read, if_neg (by omega)]
    exact ih _ hm.2.2.2

end Sys2Proof.Machine
end

