-- ==== Sys2Proof/Laws/Ops.lean ====
section
/-! SUPPORT. One lemma per shared operation that says everything it can do: the register file, the flag-and-result write, the
range check, taking a fault, the call stack, the fetch, the screen. The meanings' proofs cite these instead of unfolding the
operation. -/

namespace Sys2Proof.Machine

/-! ### The register file -/

/-- A register read after a register write. -/
@[simp] theorem State.reg_setReg (s : State) (r q : Reg) (b : Byte) : (s.setReg r b).reg q = if q = r then b else s.reg q := by
  unfold State.setReg State.reg
  simp only [State.setV_v, Vector.getElem_set]
  by_cases h : q = r
  · simp [h]
  · rw [if_neg h, if_neg (fun hn => h (BitVec.eq_of_toNat_eq hn.symm))]

/-- The flag goes to VF first and the result second (spec/43_alu.md R88). -/
@[simp] theorem State.reg_setFlagThen (s : State) (flag result : Byte) (d q : Reg) :
    (s.setFlagThen flag d result).reg q = if q = d then result else if q = Reg.vf then flag else s.reg q := by
  unfold State.setFlagThen; simp

/-- A register write changes `v` alone. -/
theorem State.setReg_eq_setV (s : State) (r : Reg) (b : Byte) : s.setReg r b = s.setV (s.setReg r b).v := rfl

/-- The flag-and-result write changes `v` alone. -/
theorem State.setFlagThen_eq_setV (s : State) (flag result : Byte) (d : Reg) :
    s.setFlagThen flag d result = s.setV (s.setFlagThen flag d result).v := rfl

/-- A run of register writes changes `v` alone. -/
theorem State.setRegs_eq_setV (s : State) (r : Nat) (bytes : List Byte) : s.setRegs r bytes = s.setV (s.setRegs r bytes).v := by
  induction bytes generalizing s r with
  | nil => rfl
  | cons b rest ih => rw [State.setRegs, ih]; rfl

/-- A register read after a run of register writes. -/
theorem State.reg_setRegs (s : State) (r : Nat) (bytes : List Byte) (h : r + bytes.length ≤ 16) (q : Reg) :
    (s.setRegs r bytes).reg q =
      if hq : r ≤ q.toNat ∧ q.toNat < r + bytes.length then bytes[q.toNat - r]'(by omega) else s.reg q := by
  induction bytes generalizing s r with
  | nil =>
    rw [dif_neg (by simp only [List.length_nil]; omega)]
    rfl
  | cons b rest ih =>
    simp only [List.length_cons] at h
    rw [State.setRegs, ih _ _ (by omega)]
    by_cases h1 : r + 1 ≤ q.toNat ∧ q.toNat < r + 1 + rest.length
    · have h2 : r ≤ q.toNat ∧ q.toNat < r + (b :: rest).length := by simp only [List.length_cons]; omega
      rw [dif_pos h1, dif_pos h2]
      have : q.toNat - r = (q.toNat - (r + 1)) + 1 := by omega
      simp [this]
    · rw [dif_neg h1, State.reg_setReg]
      by_cases h3 : q = BitVec.ofNat 4 r
      · have h4 : q.toNat = r := by rw [h3, BitVec.toNat_ofNat]; omega
        have h2 : r ≤ q.toNat ∧ q.toNat < r + (b :: rest).length := by simp only [List.length_cons]; omega
        rw [if_pos h3, dif_pos h2]
        simp [h4]
      · have h4 : q.toNat ≠ r := fun hn => h3 (BitVec.eq_of_toNat_eq (by rw [BitVec.toNat_ofNat]; omega))
        have h2 : ¬ (r ≤ q.toNat ∧ q.toNat < r + (b :: rest).length) := by simp only [List.length_cons]; omega
        rw [if_neg h3, dif_neg h2]

@[simp] theorem State.length_regsUpTo (s : State) (x : Reg) : (s.regsUpTo x).length = x.toNat + 1 := by
  simp [State.regsUpTo]

@[simp] theorem State.getElem_regsUpTo (s : State) (x : Reg) (k : Nat) (h : k < (s.regsUpTo x).length) :
    (s.regsUpTo x)[k] = s.reg (BitVec.ofNat 4 k) := by
  simp [State.regsUpTo]

/-- Two register files with the same registers are the same data. -/
theorem State.v_ext {s t : State} (h : ∀ r, s.reg r = t.reg r) : s.v = t.v := by
  apply Vector.ext
  intro k hk
  have := h (BitVec.ofNat 4 k)
  unfold State.reg at this
  have hk' : (BitVec.ofNat 4 k).toNat = k := by rw [BitVec.toNat_ofNat]; omega
  simpa only [hk'] using this

/-! ### Flags -/

theorem flagByte_eq (c : Bool) : flagByte c = if c then 0x01#8 else 0x00#8 := rfl

theorem carryFlag_eq (a b : Byte) : carryFlag a b = if a.toNat + b.toNat > 255 then 0x01#8 else 0x00#8 := by
  simp [carryFlag, flagByte]

theorem notBorrowFlag_eq (a b : Byte) : notBorrowFlag a b = if a.toNat > b.toNat then 0x01#8 else 0x00#8 := by
  simp [notBorrowFlag, flagByte]

/-! ### The memory-range check -/

/-- The check passes when every address of the range exists. -/
theorem checkRange_eq_none (base : Word) (count : Nat) (h : base.toNat + count ≤ 0x1000) : checkRange base count = none := by
  unfold checkRange; rw [if_neg (by omega)]

/-- The check fails with the first address above 0xFFF. -/
theorem checkRange_eq_some (base : Word) (count : Nat) (h : base.toNat + count > 0x1000) :
    checkRange base count = some (if base.toNat < 0x1000 then 0x1000#16 else base) := by
  unfold checkRange
  rw [if_pos (by omega)]
  congr 1
  apply BitVec.eq_of_toNat_eq
  split
  · next hb => rw [Nat.max_eq_right (by omega)]
  · next hb => rw [Nat.max_eq_left (by omega)]; simp

/-- A range whose check passes lies within Memory. -/
theorem checkRange_none_le {base : Word} {count : Nat} (h : checkRange base count = none) :
    base.toNat + count ≤ 0x1000 := by
  unfold checkRange at h
  split at h
  · cases h
  · omega

/-- In range, the checked operation gives its state. -/
theorem rangeChecked_inRange (s : State) (count : Nat) (word : Word) (ok : State) (h : s.i.toNat + count ≤ 0x1000) :
    rangeChecked s count word ok = .next ok := by
  unfold rangeChecked; rw [checkRange_eq_none _ _ h]

/-- Out of range, it takes the fault with nothing else written. -/
theorem rangeChecked_outOfRange (s : State) (count : Nat) (word : Word) (ok : State) (h : s.i.toNat + count > 0x1000) :
    rangeChecked s count word ok =
      takeFault s .memoryOutOfBounds word (if s.i.toNat < 0x1000 then 0x1000#16 else s.i) := by
  unfold rangeChecked; rw [checkRange_eq_some _ _ h]

/-- Everything a range-checked operation can answer. -/
theorem rangeChecked_cases (s : State) (count : Nat) (word : Word) (ok : State) :
    (s.i.toNat + count ≤ 0x1000 ∧ rangeChecked s count word ok = .next ok) ∨
      (s.i.toNat + count > 0x1000 ∧ rangeChecked s count word ok =
        takeFault s .memoryOutOfBounds word (if s.i.toNat < 0x1000 then 0x1000#16 else s.i)) := by
  by_cases h : s.i.toNat + count ≤ 0x1000
  · exact .inl ⟨h, rangeChecked_inRange s count word ok h⟩
  · exact .inr ⟨by omega, rangeChecked_outOfRange s count word ok (by omega)⟩

/-! ### Taking a fault -/

/-- A fault changes the mode alone; the record is that of spec/60_exceptions.md R115. -/
theorem takeFault_eq (s : State) (kind : Fault) (word info : Word) :
    takeFault s kind word info =
      .next (s.setMode (.halted { kind := kind, pcInsn := s.pc - 2, word := some word, info := info })) := rfl

/-- A fetch fault changes the mode alone, with no word in its record. -/
theorem takeFetchFault_eq (s : State) (kind : Fault) :
    takeFetchFault s kind =
      .next (s.setMode (.halted { kind := kind, pcInsn := s.pc, word := none, info := s.pc })) := rfl

/-! ### The call stack -/

/-- Everything a push can answer (spec/10_state.md R24). -/
theorem pushThen_cases (s : State) (v word : Word) (ok : State → State) :
    (s.stack.length < 16 ∧ pushThen s v word ok = .next (ok (s.setStack (s.stack ++ [v])))) ∨
      (16 ≤ s.stack.length ∧ pushThen s v word ok = takeFault s .stackOverflow word (s.pc - 2)) := by
  unfold pushThen
  by_cases h : s.stack.length < 16
  · exact .inl ⟨h, if_pos h⟩
  · exact .inr ⟨by omega, if_neg h⟩

/-- A pop of an empty stack (spec/10_state.md R25). -/
theorem popThen_empty (s : State) (word : Word) (ok : Word → State → State) (h : s.stack = []) :
    popThen s word ok = takeFault s .stackUnderflow word (s.pc - 2) := by
  unfold popThen; rw [h]; rfl

/-- A pop of a stack whose top is `v` (spec/10_state.md R25). -/
theorem popThen_top (s : State) (word v : Word) (rest : List Word) (ok : Word → State → State) (h : s.stack = rest ++ [v]) :
    popThen s word ok = .next (ok v (s.setStack rest)) := by
  unfold popThen; rw [h]; simp

/-- Everything a pop can answer. -/
theorem popThen_cases (s : State) (word : Word) (ok : Word → State → State) :
    (s.stack = [] ∧ popThen s word ok = takeFault s .stackUnderflow word (s.pc - 2)) ∨
      (∃ rest v, s.stack = rest ++ [v] ∧ popThen s word ok = .next (ok v (s.setStack rest))) := by
  rcases List.eq_nil_or_concat s.stack with hn | ⟨rest, v, hv⟩
  · exact .inl ⟨hn, popThen_empty s word ok hn⟩
  · exact .inr ⟨rest, v, by simpa using hv, popThen_top s word v rest ok (by simpa using hv)⟩

/-! ### Fetch -/

/-- Everything a fetch can answer (spec/40_step_cycle.md R65), in the order of its checks. -/
theorem fetchChecked_cases (odd : Config.OddFetch) (s : State) :
    (s.pc.toNat > 0xFFE ∧ fetchChecked odd s = .error .fetchOutOfBounds) ∨
      (s.pc.toNat ≤ 0xFFE ∧ s.pc.getLsbD 0 = true ∧ odd = .fault ∧ fetchChecked odd s = .error .misalignedFetch) ∨
      (s.pc.toNat ≤ 0xFFE ∧ ¬ (s.pc.getLsbD 0 = true ∧ odd = .fault) ∧
        fetchChecked odd s = .ok (joinBytes (s.mem.read s.pc.toNat) (s.mem.read (s.pc.toNat + 1)))) := by
  unfold fetchChecked
  by_cases h1 : s.pc.toNat > 0xFFE
  · exact .inl ⟨h1, if_pos h1⟩
  · by_cases h2 : s.pc.getLsbD 0 = true ∧ odd = .fault
    · exact .inr (.inl ⟨by omega, h2.1, h2.2, by rw [if_neg h1, if_pos h2]⟩)
    · exact .inr (.inr ⟨by omega, h2, by rw [if_neg h1, if_neg h2]⟩)

/-- A fetch sees `mem` and `pc` alone. -/
theorem fetchChecked_congr (odd : Config.OddFetch) {s t : State} (hm : s.mem = t.mem) (hp : s.pc = t.pc) :
    fetchChecked odd s = fetchChecked odd t := by
  unfold fetchChecked; rw [hm, hp]

/-! ### The key operand -/

/-- The key test's operand: a key for 0 to 15, none above. -/
theorem keyOperand_cases (b : Byte) :
    (∃ h : b.toNat < 16, keyOperand b = some ⟨b.toNat, h⟩) ∨ (16 ≤ b.toNat ∧ keyOperand b = none) := by
  unfold keyOperand
  by_cases h : b.toNat < 16
  · exact .inl ⟨h, dif_pos h⟩
  · exact .inr ⟨by omega, dif_neg h⟩

/-! ### The screen -/

@[simp] theorem Screen.pixel_blank (x : Fin 64) (y : Fin 32) : Screen.blank.pixel x y = false := by
  simp [Screen.blank, Screen.pixel]

/-- A pixel read after a pixel write. -/
@[simp] theorem Screen.pixel_setPixel (p : Screen) (x x' : Fin 64) (y y' : Fin 32) (b : Bool) :
    (p.setPixel x y b).pixel x' y' = if x' = x ∧ y' = y then b else p.pixel x' y' := by
  unfold Screen.setPixel Screen.pixel
  simp only [Fin.getElem_fin, Vector.getElem_set]
  by_cases hy : y' = y
  · subst hy
    by_cases hx : x' = x
    · subst hx; simp
    · have : ¬ (x.val = x'.val) := fun h => hx (Fin.ext h.symm)
      simp [hx, this]
  · have : ¬ (y.val = y'.val) := fun h => hy (Fin.ext h.symm)
    simp [hy, this]

/-- Two screens with the same pixels are the same data. -/
theorem Screen.ext_pixel {p q : Screen} (h : ∀ x y, p.pixel x y = q.pixel x y) : p = q := by
  apply Vector.ext
  intro y hy
  apply Vector.ext
  intro x hx
  exact h ⟨x, hx⟩ ⟨y, hy⟩

end Sys2Proof.Machine
end

