-- ==== Sys2Proof/Laws/Display.lean ====
section
/-! SUPPORT. What a draw does, pixel by pixel (spec/41_display.md R76): the sprite covers a pixel when one of its 1-bits lands
there; a covered pixel flips; the collision is a covered pixel that was lit. -/

namespace Sys2Proof.Machine

/-- Distinct columns of a sprite row land on distinct screen columns. -/
theorem screenColumn_injective {vx : Byte} {c c' : Nat} (hc : c < 8) (hc' : c' < 8)
    (h : screenColumn vx c = screenColumn vx c') : c = c' := by
  have := congrArg Fin.val h
  simp only [screenColumn, Fin.ofNat] at this
  omega

/-- Distinct rows of a sprite land on distinct screen rows. -/
theorem screenRow_injective {vy : Byte} {r r' : Nat} (hr : r < 32) (hr' : r' < 32)
    (h : screenRow vy r = screenRow vy r') : r = r' := by
  have := congrArg Fin.val h
  simp only [screenRow, Fin.ofNat] at this
  omega

/-- One bit XORed onto its pixel: it flips that pixel, and no other. -/
theorem blitBit_pixel (vx vy b : Byte) (row : Nat) (d : Blit) (col : Nat) (px : Fin 64) (py : Fin 32) :
    (blitBit vx vy b row d col).screen.pixel px py =
      if spriteBit b col = true ∧ px = screenColumn vx col ∧ py = screenRow vy row
      then !d.screen.pixel px py else d.screen.pixel px py := by
  unfold blitBit
  by_cases hb : spriteBit b col = true
  · simp only [hb, if_true, Screen.pixel_setPixel, true_and]
    split
    · next hp => rw [hp.1, hp.2]
    · rfl
  · simp [hb]

theorem blitBit_collision (vx vy b : Byte) (row : Nat) (d : Blit) (col : Nat) :
    (blitBit vx vy b row d col).collision =
      (d.collision || (spriteBit b col && d.screen.pixel (screenColumn vx col) (screenRow vy row))) := by
  unfold blitBit
  by_cases hb : spriteBit b col = true <;> simp [hb]

/-- One of the first `k` columns of the sprite row `b` has a 1-bit that lands on the pixel. -/
def RowCovers (vx vy b : Byte) (row k : Nat) (px : Fin 64) (py : Fin 32) : Prop :=
  ∃ col < k, spriteBit b col = true ∧ px = screenColumn vx col ∧ py = screenRow vy row

theorem rowCovers_succ (vx vy b : Byte) (row k : Nat) (px : Fin 64) (py : Fin 32) :
    RowCovers vx vy b row (k + 1) px py ↔
      RowCovers vx vy b row k px py ∨ (spriteBit b k = true ∧ px = screenColumn vx k ∧ py = screenRow vy row) := by
  constructor
  · rintro ⟨c, hc, h⟩
    rcases Nat.lt_succ_iff_lt_or_eq.1 hc with hlt | heq
    · exact .inl ⟨c, hlt, h⟩
    · exact .inr (heq ▸ h)
  · rintro (⟨c, hc, h⟩ | h)
    · exact ⟨c, by omega, h⟩
    · exact ⟨k, by omega, h⟩

/-- No pixel is visited twice within a row. -/
theorem rowCovers_misses_next {vx vy b : Byte} {row k : Nat} (hk : k < 8) {px : Fin 64} {py : Fin 32}
    (hx : px = screenColumn vx k) : ¬ RowCovers vx vy b row k px py := by
  rintro ⟨c, hc, -, hx', -⟩
  exact absurd (screenColumn_injective (by omega) hk (hx'.symm.trans hx)) (by omega)

/-- The first `k` columns of a row, pixel by pixel. -/
theorem blitColumns_pixel (vx vy b : Byte) (row : Nat) (d : Blit) (k : Nat) (hk : k ≤ 8) (px : Fin 64) (py : Fin 32) :
    (RowCovers vx vy b row k px py →
        ((List.range k).foldl (blitBit vx vy b row) d).screen.pixel px py = !d.screen.pixel px py) ∧
      (¬ RowCovers vx vy b row k px py →
        ((List.range k).foldl (blitBit vx vy b row) d).screen.pixel px py = d.screen.pixel px py) := by
  induction k with
  | zero => exact ⟨fun ⟨_, hc, _⟩ => absurd hc (by omega), fun _ => rfl⟩
  | succ k ih =>
    obtain ⟨ih1, ih2⟩ := ih (by omega)
    rw [List.range_succ, List.foldl_append, List.foldl_cons, List.foldl_nil, blitBit_pixel, rowCovers_succ]
    split
    · next h =>
      rw [ih2 (rowCovers_misses_next (by omega) h.2.1)]
      exact ⟨fun _ => rfl, fun hn => absurd (.inr h) hn⟩
    · next h => exact ⟨fun hc => ih1 (hc.resolve_right h), fun hn => ih2 (fun hc => hn (.inl hc))⟩

theorem blitColumns_collision (vx vy b : Byte) (row : Nat) (d : Blit) (k : Nat) (hk : k ≤ 8) :
    ((List.range k).foldl (blitBit vx vy b row) d).collision = true ↔
      (d.collision = true ∨ ∃ px py, RowCovers vx vy b row k px py ∧ d.screen.pixel px py = true) := by
  induction k with
  | zero =>
    refine ⟨.inl, ?_⟩
    rintro (h | ⟨_, _, ⟨_, hc, _⟩, _⟩)
    · exact h
    · exact absurd hc (by omega)
  | succ k ih =>
    rw [List.range_succ, List.foldl_append, List.foldl_cons, List.foldl_nil, blitBit_collision,
      (blitColumns_pixel vx vy b row d k (by omega) _ _).2 (rowCovers_misses_next (by omega) rfl),
      Bool.or_eq_true, ih (by omega), Bool.and_eq_true]
    constructor
    · rintro ((h | ⟨px, py, hc, hl⟩) | ⟨hb, hl⟩)
      · exact .inl h
      · exact .inr ⟨px, py, (rowCovers_succ ..).2 (.inl hc), hl⟩
      · exact .inr ⟨_, _, (rowCovers_succ ..).2 (.inr ⟨hb, rfl, rfl⟩), hl⟩
    · rintro (h | ⟨px, py, hc, hl⟩)
      · exact .inl (.inl h)
      · rcases (rowCovers_succ ..).1 hc with hc' | ⟨hb, hx, hy⟩
        · exact .inl (.inr ⟨px, py, hc', hl⟩)
        · exact .inr ⟨hb, by rw [← hx, ← hy]; exact hl⟩

/-- The sprite `bytes`, drawn from row `row` on, has a 1-bit that lands on the pixel. -/
def SpriteCovers (vx vy : Byte) (row : Nat) (bytes : List Byte) (px : Fin 64) (py : Fin 32) : Prop :=
  ∃ k, ∃ h : k < bytes.length, RowCovers vx vy bytes[k] (row + k) 8 px py

theorem not_spriteCovers_nil (vx vy : Byte) (row : Nat) (px : Fin 64) (py : Fin 32) : ¬ SpriteCovers vx vy row [] px py := by
  rintro ⟨k, hk, -⟩
  exact absurd hk (by simp)

/-- A sprite covers what its first row or the rows after it cover. -/
theorem spriteCovers_cons (vx vy : Byte) (row : Nat) (b : Byte) (rest : List Byte) (px : Fin 64) (py : Fin 32) :
    SpriteCovers vx vy row (b :: rest) px py ↔
      RowCovers vx vy b row 8 px py ∨ SpriteCovers vx vy (row + 1) rest px py := by
  constructor
  · rintro ⟨k, hk, h⟩
    cases k with
    | zero => exact .inl h
    | succ k =>
      refine .inr ⟨k, by simpa using hk, ?_⟩
      rw [show row + 1 + k = row + (k + 1) by omega]
      simpa using h
  · rintro (h | ⟨k, hk, h⟩)
    · exact ⟨0, by simp, h⟩
    · refine ⟨k + 1, by simpa using hk, ?_⟩
      rw [show row + (k + 1) = row + 1 + k by omega]
      simpa using h

/-- No pixel is visited twice in one draw: later rows miss the pixels of the row before them. -/
theorem spriteCovers_later_misses {vx vy b : Byte} {row : Nat} {rest : List Byte} {px : Fin 64} {py : Fin 32}
    (hlen : row + 1 + rest.length ≤ 32) (h : RowCovers vx vy b row 8 px py) :
    ¬ SpriteCovers vx vy (row + 1) rest px py := by
  rintro ⟨k, hk, _, -, -, -, hy⟩
  obtain ⟨_, -, -, -, hpy⟩ := h
  exact absurd (screenRow_injective (by omega) (by omega) (hpy.symm.trans hy)) (by omega)

/-- A whole sprite, pixel by pixel: exactly the covered pixels flip. -/
theorem blitRows_pixel (vx vy : Byte) (row : Nat) (bytes : List Byte) (d : Blit) (hlen : row + bytes.length ≤ 32)
    (px : Fin 64) (py : Fin 32) :
    (SpriteCovers vx vy row bytes px py →
        (blitRows vx vy row bytes d).screen.pixel px py = !d.screen.pixel px py) ∧
      (¬ SpriteCovers vx vy row bytes px py →
        (blitRows vx vy row bytes d).screen.pixel px py = d.screen.pixel px py) := by
  induction bytes generalizing row d with
  | nil => exact ⟨fun h => absurd h (not_spriteCovers_nil vx vy row px py), fun _ => rfl⟩
  | cons b rest ih =>
    simp only [List.length_cons] at hlen
    obtain ⟨ih1, ih2⟩ := ih (row + 1) (blitRow vx vy b row d) (by omega)
    obtain ⟨r1, r2⟩ := blitColumns_pixel vx vy b row d 8 (by omega) px py
    rw [blitRows, spriteCovers_cons]
    by_cases h : RowCovers vx vy b row 8 px py
    · rw [ih2 (spriteCovers_later_misses (by omega) h)]
      exact ⟨fun _ => r1 h, fun hn => absurd (.inl h) hn⟩
    · exact ⟨fun hc => (ih1 (hc.resolve_left h)).trans (congrArg (!·) (r2 h)),
        fun hn => (ih2 (fun hc => hn (.inr hc))).trans (r2 h)⟩

/-- The collision of a whole sprite: a covered pixel that was lit before the draw. -/
theorem blitRows_collision (vx vy : Byte) (row : Nat) (bytes : List Byte) (d : Blit) (hlen : row + bytes.length ≤ 32) :
    (blitRows vx vy row bytes d).collision = true ↔
      (d.collision = true ∨ ∃ px py, SpriteCovers vx vy row bytes px py ∧ d.screen.pixel px py = true) := by
  induction bytes generalizing row d with
  | nil =>
    refine ⟨.inl, ?_⟩
    rintro (h | ⟨px, py, hc, -⟩)
    · exact h
    · exact absurd hc (not_spriteCovers_nil vx vy row px py)
  | cons b rest ih =>
    simp only [List.length_cons] at hlen
    have key : ∀ px py, SpriteCovers vx vy (row + 1) rest px py →
        (blitRow vx vy b row d).screen.pixel px py = d.screen.pixel px py := fun px py hc =>
      (blitColumns_pixel vx vy b row d 8 (by omega) px py).2 (fun h => spriteCovers_later_misses (by omega) h hc)
    rw [blitRows, ih (row + 1) _ (by omega), blitRow, blitColumns_collision vx vy b row d 8 (by omega)]
    constructor
    · rintro ((h | ⟨px, py, hc, hl⟩) | ⟨px, py, hc, hl⟩)
      · exact .inl h
      · exact .inr ⟨px, py, (spriteCovers_cons ..).2 (.inl hc), hl⟩
      · exact .inr ⟨px, py, (spriteCovers_cons ..).2 (.inr hc), (key px py hc).symm.trans hl⟩
    · rintro (h | ⟨px, py, hc, hl⟩)
      · exact .inl (.inl h)
      · rcases (spriteCovers_cons ..).1 hc with hr | hs
        · exact .inl (.inr ⟨px, py, hr, hl⟩)
        · exact .inr ⟨px, py, hs, (key px py hs).trans hl⟩

/-! ### The state after a draw: the Screen, VF and the redraw flag -/

@[simp] theorem drawSprite_mem (s : State) (vx vy : Byte) (bytes : List Byte) : (drawSprite s vx vy bytes).mem = s.mem := rfl
@[simp] theorem drawSprite_i (s : State) (vx vy : Byte) (bytes : List Byte) : (drawSprite s vx vy bytes).i = s.i := rfl
@[simp] theorem drawSprite_pc (s : State) (vx vy : Byte) (bytes : List Byte) : (drawSprite s vx vy bytes).pc = s.pc := rfl
@[simp] theorem drawSprite_stack (s : State) (vx vy : Byte) (bytes : List Byte) : (drawSprite s vx vy bytes).stack = s.stack := rfl
@[simp] theorem drawSprite_dt (s : State) (vx vy : Byte) (bytes : List Byte) : (drawSprite s vx vy bytes).dt = s.dt := rfl
@[simp] theorem drawSprite_st (s : State) (vx vy : Byte) (bytes : List Byte) : (drawSprite s vx vy bytes).st = s.st := rfl
@[simp] theorem drawSprite_keys (s : State) (vx vy : Byte) (bytes : List Byte) : (drawSprite s vx vy bytes).keys = s.keys := rfl
@[simp] theorem drawSprite_mode (s : State) (vx vy : Byte) (bytes : List Byte) : (drawSprite s vx vy bytes).mode = s.mode := rfl
@[simp] theorem drawSprite_loaded (s : State) (vx vy : Byte) (bytes : List Byte) : (drawSprite s vx vy bytes).loaded = s.loaded := rfl
@[simp] theorem drawSprite_draws (s : State) (vx vy : Byte) (bytes : List Byte) : (drawSprite s vx vy bytes).draws = s.draws := rfl
@[simp] theorem drawSprite_redraw (s : State) (vx vy : Byte) (bytes : List Byte) : (drawSprite s vx vy bytes).redraw = true := rfl

theorem drawSprite_screen (s : State) (vx vy : Byte) (bytes : List Byte) :
    (drawSprite s vx vy bytes).screen = (blitRows vx vy 0 bytes { screen := s.screen, collision := false }).screen := rfl

theorem drawSprite_reg (s : State) (vx vy : Byte) (bytes : List Byte) (q : Reg) :
    (drawSprite s vx vy bytes).reg q =
      if q = Reg.vf then flagByte (blitRows vx vy 0 bytes { screen := s.screen, collision := false }).collision
      else s.reg q := by
  unfold drawSprite; simp

end Sys2Proof.Machine
end

