-- ==== Sys2Proof/Laws/Frame.lean ====
section
/-! SUPPORT. Frames: `OnlyWrites` composes, weakens, and each update of the state and each shared operation writes only what it
names. -/

namespace Sys2Proof.Machine

theorem samePiece_refl (p : Piece) (s : State) : samePiece p s s := by cases p <;> rfl

theorem samePiece_trans {p : Piece} {s t u : State} (h : samePiece p s t) (h' : samePiece p t u) : samePiece p s u := by
  cases p <;> exact Eq.trans h' h

theorem OnlyWrites.refl (w : Piece → Prop) (s : State) : OnlyWrites w s s := fun p _ => samePiece_refl p s

/-- Frames compose. -/
theorem OnlyWrites.trans {w : Piece → Prop} {s t u : State} (h : OnlyWrites w s t) (h' : OnlyWrites w t u) :
    OnlyWrites w s u := fun p hp => samePiece_trans (h p hp) (h' p hp)

/-- A frame weakens to any larger set of pieces. -/
theorem OnlyWrites.mono {w w' : Piece → Prop} {s t : State} (h : OnlyWrites w s t) (hw : ∀ p, w p → w' p) :
    OnlyWrites w' s t := fun p hp => h p (fun hn => hp (hw p hn))

theorem onlyWrites_setI (s : State) (a : Word) : OnlyWrites (fun p => p = .i) s (s.setI a) := by
  intro p hp
  cases p <;> first | rfl | exact absurd rfl hp

theorem onlyWrites_setPc (s : State) (a : Word) : OnlyWrites (fun p => p = .pc) s (s.setPc a) := by
  intro p hp
  cases p <;> first | rfl | exact absurd rfl hp

theorem onlyWrites_setStack (s : State) (l : List Word) : OnlyWrites (fun p => p = .stack) s (s.setStack l) := by
  intro p hp
  cases p <;> first | rfl | exact absurd rfl hp

theorem onlyWrites_setDt (s : State) (b : Byte) : OnlyWrites (fun p => p = .dt) s (s.setDt b) := by
  intro p hp
  cases p <;> first | rfl | exact absurd rfl hp

theorem onlyWrites_setSt (s : State) (b : Byte) : OnlyWrites (fun p => p = .st) s (s.setSt b) := by
  intro p hp
  cases p <;> first | rfl | exact absurd rfl hp

theorem onlyWrites_setMode (s : State) (m : Mode) : OnlyWrites (fun p => p = .mode) s (s.setMode m) := by
  intro p hp
  cases p <;> first | rfl | exact absurd rfl hp

theorem onlyWrites_setRedraw (s : State) (b : Bool) : OnlyWrites (fun p => p = .redraw) s (s.setRedraw b) := by
  intro p hp
  cases p <;> first | rfl | exact absurd rfl hp

theorem onlyWrites_setLoaded (s : State) (b : Bool) : OnlyWrites (fun p => p = .loaded) s (s.setLoaded b) := by
  intro p hp
  cases p <;> first | rfl | exact absurd rfl hp

theorem onlyWrites_setDraws (s : State) (n : Nat) : OnlyWrites (fun p => p = .draws) s (s.setDraws n) := by
  intro p hp
  cases p <;> first | rfl | exact absurd rfl hp

theorem onlyWrites_setMem (s : State) (m : Memory) :
    OnlyWrites (fun p => ∃ a, p = .byte a ∧ m.read a ≠ s.mem.read a) s (s.setMem m) := by
  intro p hp
  cases p with
  | byte a =>
    by_contra hn
    exact hp ⟨a, rfl, hn⟩
  | _ => rfl

theorem onlyWrites_setV (s : State) (v : Vector Byte 16) :
    OnlyWrites (fun p => ∃ r, p = .reg r ∧ (s.setV v).reg r ≠ s.reg r) s (s.setV v) := by
  intro p hp
  cases p with
  | reg r =>
    by_contra hn
    exact hp ⟨r, rfl, hn⟩
  | _ => rfl

theorem onlyWrites_setScreen (s : State) (q : Screen) :
    OnlyWrites (fun p => ∃ x y, p = .pixel x y ∧ q.pixel x y ≠ s.screen.pixel x y) s (s.setScreen q) := by
  intro p hp
  cases p with
  | pixel x y =>
    by_contra hn
    exact hp ⟨x, y, rfl, hn⟩
  | _ => rfl

theorem onlyWrites_setKeys (s : State) (k : Vector Bool 16) :
    OnlyWrites (fun p => ∃ j : Fin 16, p = .key j ∧ k[j] ≠ s.keys[j]) s (s.setKeys k) := by
  intro p hp
  cases p with
  | key j =>
    by_contra hn
    exact hp ⟨j, rfl, hn⟩
  | _ => rfl

/-- A register write writes that register alone. -/
theorem onlyWrites_setReg (s : State) (r : Reg) (b : Byte) : OnlyWrites (fun p => p = .reg r) s (s.setReg r b) := by
  rw [State.setReg_eq_setV]
  refine (onlyWrites_setV s _).mono ?_
  rintro p ⟨q, rfl, hq⟩
  rw [← State.setReg_eq_setV, State.reg_setReg] at hq
  by_cases h : q = r
  · rw [h]
  · rw [if_neg h] at hq; exact absurd rfl hq

/-- The flag-and-result write writes VF and the destination alone. -/
theorem onlyWrites_setFlagThen (s : State) (flag result : Byte) (d : Reg) :
    OnlyWrites (fun p => p = .reg 0xF ∨ p = .reg d) s (s.setFlagThen flag d result) :=
  ((onlyWrites_setReg s Reg.vf flag).mono (fun _ h => .inl h)).trans
    ((onlyWrites_setReg _ d result).mono (fun _ h => .inr h))

/-- A run of register writes writes the registers it reaches alone. -/
theorem onlyWrites_setRegs (s : State) (r : Nat) (bytes : List Byte) (h : r + bytes.length ≤ 16) :
    OnlyWrites (fun p => ∃ q : Reg, r ≤ q.toNat ∧ q.toNat < r + bytes.length ∧ p = .reg q) s (s.setRegs r bytes) := by
  rw [State.setRegs_eq_setV]
  refine (onlyWrites_setV s _).mono ?_
  rintro p ⟨q, rfl, hq⟩
  rw [← State.setRegs_eq_setV, State.reg_setRegs s r bytes h] at hq
  by_cases hr : r ≤ q.toNat ∧ q.toNat < r + bytes.length
  · exact ⟨q, hr.1, hr.2, rfl⟩
  · rw [dif_neg hr] at hq; exact absurd rfl hq

/-- A run of byte writes writes those bytes alone. -/
theorem onlyWrites_writeBytes (s : State) (base : Nat) (bytes : List Byte) :
    OnlyWrites (fun p => ∃ k, k < bytes.length ∧ p = .byte (base + k)) s (s.setMem (s.mem.writeBytes base bytes)) := by
  refine (onlyWrites_setMem s _).mono ?_
  rintro p ⟨a, rfl, ha⟩
  rw [Memory.read_writeBytes] at ha
  by_cases h : base ≤ a ∧ a < base + bytes.length
  · exact ⟨a - base, by omega, by rw [Nat.add_sub_cancel' h.1]⟩
  · rw [dif_neg h] at ha; exact absurd rfl ha

theorem onlyWrites_skip (s : State) (c : Bool) : OnlyWrites (fun p => p = .pc) s (s.skip c) := by
  rw [State.skip_eq]; exact onlyWrites_setPc s _

/-- A draw writes the covered pixels, VF and the redraw flag alone. -/
theorem onlyWrites_drawSprite (s : State) (vx vy : Byte) (bytes : List Byte) (hlen : bytes.length ≤ 32) :
    OnlyWrites (fun p => (∃ px py, SpriteCovers vx vy 0 bytes px py ∧ p = .pixel px py) ∨ p = .reg 0xF ∨ p = .redraw)
      s (drawSprite s vx vy bytes) := by
  unfold drawSprite
  refine OnlyWrites.trans (OnlyWrites.trans ((onlyWrites_setScreen s _).mono ?_) ((onlyWrites_setReg _ _ _).mono ?_))
    ((onlyWrites_setRedraw _ _).mono ?_)
  · rintro p ⟨x, y, rfl, hxy⟩
    by_cases h : SpriteCovers vx vy 0 bytes x y
    · exact .inl ⟨x, y, h, rfl⟩
    · exact absurd ((blitRows_pixel vx vy 0 bytes _ (by omega) x y).2 h) hxy
  · intro p hp; exact .inr (.inl hp)
  · intro p hp; exact .inr (.inr hp)

end Sys2Proof.Machine
end

