-- ==== Sys2Proof/Laws/PerInstr.lean ====
section
/-! SUPPORT. The family EncodeRow: every instruction's word matches its own row of the match and mask table
(spec/30_encoding.md R57), for every value of its operands. Before it, what the fields of an encoded word are. -/

namespace Sys2Proof

/-- The fields of a `class x y n` word. -/
@[simp] theorem fieldsOf_nibbleWord (c x y n : BitVec 4) :
    fieldsOf (nibbleWord c x y n) = { cls := c, x := x, y := y, n := n, kk := y ++ n, nnn := x ++ y ++ n } := by
  unfold fieldsOf nibbleWord
  congr 1 <;> ext k hk <;> grind

/-- The fields of a `class x kk` word. -/
@[simp] theorem fieldsOf_immWord (c : BitVec 4) (x : Reg) (kk : Byte) :
    fieldsOf (immWord c x kk) =
      { cls := c, x := x, y := kk.extractLsb' 4 4, n := kk.extractLsb' 0 4, kk := kk, nnn := x ++ kk } := by
  unfold fieldsOf immWord
  congr 1 <;> ext k hk <;> grind

/-- The fields of a `class nnn` word. -/
@[simp] theorem fieldsOf_addrWord (c : BitVec 4) (nnn : Addr) :
    fieldsOf (addrWord c nnn) =
      { cls := c, x := nnn.extractLsb' 8 4, y := nnn.extractLsb' 4 4, n := nnn.extractLsb' 0 4,
        kk := nnn.extractLsb' 0 8, nnn := nnn } := by
  unfold fieldsOf addrWord
  congr 1 <;> ext k hk <;> grind

/-- A word is the two bytes it is stored as (spec/20_memory.md R35). -/
@[simp] theorem joinBytes_high_low (w : Word) : joinBytes (highByte w) (lowByte w) = w := by
  unfold joinBytes highByte lowByte
  ext k hk
  grind

theorem nibble_and_ones (c : BitVec 4) : c &&& 0xF#4 = c := BitVec.and_allOnes

theorem byte_and_ones (b : BitVec 8) : b &&& 0xFF#8 = b := BitVec.and_allOnes

/-- The class nibble alone under the mask 0xF000. -/
theorem immWord_maskF000 (c : BitVec 4) (x : Reg) (kk : Byte) : immWord c x kk &&& 0xF000#16 = immWord c 0 0 := by
  unfold immWord
  rw [show (0xF000#16 : Word) = (0xF#4 ++ 0x0#4 ++ 0x00#8 : BitVec 16) by decide, BitVec.and_append, BitVec.and_append]
  simp [nibble_and_ones]

/-- The class nibble and the low byte under the mask 0xF0FF. -/
theorem immWord_maskF0FF (c : BitVec 4) (x : Reg) (kk : Byte) : immWord c x kk &&& 0xF0FF#16 = immWord c 0 kk := by
  unfold immWord
  rw [show (0xF0FF#16 : Word) = (0xF#4 ++ 0x0#4 ++ 0xFF#8 : BitVec 16) by decide, BitVec.and_append, BitVec.and_append]
  simp [nibble_and_ones, byte_and_ones]

/-- The class nibble alone under the mask 0xF000. -/
theorem addrWord_maskF000 (c : BitVec 4) (nnn : Addr) : addrWord c nnn &&& 0xF000#16 = addrWord c 0 := by
  unfold addrWord
  rw [show (0xF000#16 : Word) = (0xF#4 ++ 0x000#12 : BitVec 16) by decide, BitVec.and_append]
  simp [nibble_and_ones]

/-- The class nibble and the low nibble under the mask 0xF00F. -/
theorem nibbleWord_maskF00F (c x y n : BitVec 4) : nibbleWord c x y n &&& 0xF00F#16 = nibbleWord c 0 0 n := by
  unfold nibbleWord
  rw [show (0xF00F#16 : Word) = (0xF#4 ++ 0x0#4 ++ 0x0#4 ++ 0xF#4 : BitVec 16) by decide, BitVec.and_append,
    BitVec.and_append, BitVec.and_append]
  simp [nibble_and_ones]

/-- The class nibble alone under the mask 0xF000. -/
theorem nibbleWord_maskF000 (c x y n : BitVec 4) : nibbleWord c x y n &&& 0xF000#16 = nibbleWord c 0 0 0 := by
  unfold nibbleWord
  rw [show (0xF000#16 : Word) = (0xF#4 ++ 0x0#4 ++ 0x0#4 ++ 0x0#4 : BitVec 16) by decide, BitVec.and_append,
    BitVec.and_append, BitVec.and_append]
  simp [nibble_and_ones]

end Sys2Proof

/-- The encoding of `i` satisfies `w & mask = match` for the row of `i`, and that row is in the table. -/
def Sys2Proof.Laws.EncodeRow.Statement (i : Sys2Proof.Instr) : Prop :=
  Sys2Proof.rowMatches (Sys2Proof.rowOf i) (Sys2Proof.encode i) = true ∧ Sys2Proof.rowOf i ∈ Sys2Proof.opcodeTable

namespace Sys2Proof.Laws

/-- A row matches when the masked encoding is the row's match word. -/
theorem EncodeRow.of_mask {i : Instr} (h : encode i &&& (rowOf i).mask = (rowOf i).value)
    (hm : rowOf i ∈ opcodeTable) : EncodeRow.Statement i :=
  ⟨by unfold rowMatches; rw [h]; exact beq_self_eq_true _, hm⟩

theorem EncodeRow.cls : EncodeRow.Statement .cls :=
  EncodeRow.of_mask (by decide) (by simp [rowOf, opcodeTable])

theorem EncodeRow.ret : EncodeRow.Statement .ret :=
  EncodeRow.of_mask (by decide) (by simp [rowOf, opcodeTable])

theorem EncodeRow.jp (nnn : Addr) : EncodeRow.Statement (.jp nnn) :=
  EncodeRow.of_mask ((addrWord_maskF000 _ _).trans rfl) (by simp [rowOf, opcodeTable])

theorem EncodeRow.call (nnn : Addr) : EncodeRow.Statement (.call nnn) :=
  EncodeRow.of_mask ((addrWord_maskF000 _ _).trans rfl) (by simp [rowOf, opcodeTable])

theorem EncodeRow.seImm (x : Reg) (kk : Byte) : EncodeRow.Statement (.seImm x kk) :=
  EncodeRow.of_mask ((immWord_maskF000 _ _ _).trans rfl) (by simp [rowOf, opcodeTable])

theorem EncodeRow.sneImm (x : Reg) (kk : Byte) : EncodeRow.Statement (.sneImm x kk) :=
  EncodeRow.of_mask ((immWord_maskF000 _ _ _).trans rfl) (by simp [rowOf, opcodeTable])

theorem EncodeRow.seReg (x : Reg) (y : Reg) : EncodeRow.Statement (.seReg x y) :=
  EncodeRow.of_mask ((nibbleWord_maskF00F _ _ _ _).trans rfl) (by simp [rowOf, opcodeTable])

theorem EncodeRow.ldImm (x : Reg) (kk : Byte) : EncodeRow.Statement (.ldImm x kk) :=
  EncodeRow.of_mask ((immWord_maskF000 _ _ _).trans rfl) (by simp [rowOf, opcodeTable])

theorem EncodeRow.addImm (x : Reg) (kk : Byte) : EncodeRow.Statement (.addImm x kk) :=
  EncodeRow.of_mask ((immWord_maskF000 _ _ _).trans rfl) (by simp [rowOf, opcodeTable])

theorem EncodeRow.ldReg (x : Reg) (y : Reg) : EncodeRow.Statement (.ldReg x y) :=
  EncodeRow.of_mask ((nibbleWord_maskF00F _ _ _ _).trans rfl) (by simp [rowOf, opcodeTable])

theorem EncodeRow.or (x : Reg) (y : Reg) : EncodeRow.Statement (.or x y) :=
  EncodeRow.of_mask ((nibbleWord_maskF00F _ _ _ _).trans rfl) (by simp [rowOf, opcodeTable])

theorem EncodeRow.and (x : Reg) (y : Reg) : EncodeRow.Statement (.and x y) :=
  EncodeRow.of_mask ((nibbleWord_maskF00F _ _ _ _).trans rfl) (by simp [rowOf, opcodeTable])

theorem EncodeRow.xor (x : Reg) (y : Reg) : EncodeRow.Statement (.xor x y) :=
  EncodeRow.of_mask ((nibbleWord_maskF00F _ _ _ _).trans rfl) (by simp [rowOf, opcodeTable])

theorem EncodeRow.addReg (x : Reg) (y : Reg) : EncodeRow.Statement (.addReg x y) :=
  EncodeRow.of_mask ((nibbleWord_maskF00F _ _ _ _).trans rfl) (by simp [rowOf, opcodeTable])

theorem EncodeRow.sub (x : Reg) (y : Reg) : EncodeRow.Statement (.sub x y) :=
  EncodeRow.of_mask ((nibbleWord_maskF00F _ _ _ _).trans rfl) (by simp [rowOf, opcodeTable])

theorem EncodeRow.shr (x : Reg) (y : Reg) : EncodeRow.Statement (.shr x y) :=
  EncodeRow.of_mask ((nibbleWord_maskF00F _ _ _ _).trans rfl) (by simp [rowOf, opcodeTable])

theorem EncodeRow.subn (x : Reg) (y : Reg) : EncodeRow.Statement (.subn x y) :=
  EncodeRow.of_mask ((nibbleWord_maskF00F _ _ _ _).trans rfl) (by simp [rowOf, opcodeTable])

theorem EncodeRow.shl (x : Reg) (y : Reg) : EncodeRow.Statement (.shl x y) :=
  EncodeRow.of_mask ((nibbleWord_maskF00F _ _ _ _).trans rfl) (by simp [rowOf, opcodeTable])

theorem EncodeRow.sneReg (x : Reg) (y : Reg) : EncodeRow.Statement (.sneReg x y) :=
  EncodeRow.of_mask ((nibbleWord_maskF00F _ _ _ _).trans rfl) (by simp [rowOf, opcodeTable])

theorem EncodeRow.ldI (nnn : Addr) : EncodeRow.Statement (.ldI nnn) :=
  EncodeRow.of_mask ((addrWord_maskF000 _ _).trans rfl) (by simp [rowOf, opcodeTable])

theorem EncodeRow.jpV0 (nnn : Addr) : EncodeRow.Statement (.jpV0 nnn) :=
  EncodeRow.of_mask ((addrWord_maskF000 _ _).trans rfl) (by simp [rowOf, opcodeTable])

theorem EncodeRow.rnd (x : Reg) (kk : Byte) : EncodeRow.Statement (.rnd x kk) :=
  EncodeRow.of_mask ((immWord_maskF000 _ _ _).trans rfl) (by simp [rowOf, opcodeTable])

theorem EncodeRow.drw (x : Reg) (y : Reg) (n : Nibble) : EncodeRow.Statement (.drw x y n) :=
  EncodeRow.of_mask ((nibbleWord_maskF000 _ _ _ _).trans rfl) (by simp [rowOf, opcodeTable])

theorem EncodeRow.skp (x : Reg) : EncodeRow.Statement (.skp x) :=
  EncodeRow.of_mask ((immWord_maskF0FF _ _ _).trans rfl) (by simp [rowOf, opcodeTable])

theorem EncodeRow.sknp (x : Reg) : EncodeRow.Statement (.sknp x) :=
  EncodeRow.of_mask ((immWord_maskF0FF _ _ _).trans rfl) (by simp [rowOf, opcodeTable])

theorem EncodeRow.ldVxDt (x : Reg) : EncodeRow.Statement (.ldVxDt x) :=
  EncodeRow.of_mask ((immWord_maskF0FF _ _ _).trans rfl) (by simp [rowOf, opcodeTable])

theorem EncodeRow.ldVxK (x : Reg) : EncodeRow.Statement (.ldVxK x) :=
  EncodeRow.of_mask ((immWord_maskF0FF _ _ _).trans rfl) (by simp [rowOf, opcodeTable])

theorem EncodeRow.ldDt (x : Reg) : EncodeRow.Statement (.ldDt x) :=
  EncodeRow.of_mask ((immWord_maskF0FF _ _ _).trans rfl) (by simp [rowOf, opcodeTable])

theorem EncodeRow.ldSt (x : Reg) : EncodeRow.Statement (.ldSt x) :=
  EncodeRow.of_mask ((immWord_maskF0FF _ _ _).trans rfl) (by simp [rowOf, opcodeTable])

theorem EncodeRow.addI (x : Reg) : EncodeRow.Statement (.addI x) :=
  EncodeRow.of_mask ((immWord_maskF0FF _ _ _).trans rfl) (by simp [rowOf, opcodeTable])

theorem EncodeRow.ldF (x : Reg) : EncodeRow.Statement (.ldF x) :=
  EncodeRow.of_mask ((immWord_maskF0FF _ _ _).trans rfl) (by simp [rowOf, opcodeTable])

theorem EncodeRow.ldB (x : Reg) : EncodeRow.Statement (.ldB x) :=
  EncodeRow.of_mask ((immWord_maskF0FF _ _ _).trans rfl) (by simp [rowOf, opcodeTable])

theorem EncodeRow.ldMemI (x : Reg) : EncodeRow.Statement (.ldMemI x) :=
  EncodeRow.of_mask ((immWord_maskF0FF _ _ _).trans rfl) (by simp [rowOf, opcodeTable])

theorem EncodeRow.ldIMem (x : Reg) : EncodeRow.Statement (.ldIMem x) :=
  EncodeRow.of_mask ((immWord_maskF0FF _ _ _).trans rfl) (by simp [rowOf, opcodeTable])

end Sys2Proof.Laws
end

