-- ==== Sys2Proof/Laws/Step.lean ====
section
/-! SUPPORT. Everything one step can answer, said once (spec/40_step_cycle.md R64 to R69). -/

namespace Sys2Proof.Machine

/-- A step before `load` has no move (R129). -/
theorem stepWith_notLoaded (odd : Config.OddFetch) (s : State) (h : s.loaded = false) :
    stepWith odd s = .refused .stepBeforeLoad := by
  unfold stepWith; simp [h]

/-- A step while awaiting changes nothing (R68). -/
theorem stepWith_awaiting (odd : Config.OddFetch) (s : State) (h : s.loaded = true) (x : Reg)
    (hm : s.mode = .awaitingKey x) : stepWith odd s = .next s := by
  unfold stepWith; simp [h, hm]

/-- A step while halted changes nothing (R69). -/
theorem stepWith_halted (odd : Config.OddFetch) (s : State) (h : s.loaded = true) (f : FaultRecord)
    (hm : s.mode = .halted f) : stepWith odd s = .next s := by
  unfold stepWith; simp [h, hm]

/-- A step whose fetch fails takes the fetch fault (R65). -/
theorem stepWith_fetchFault (odd : Config.OddFetch) (s : State) (h : s.loaded = true) (hm : s.mode = .running) (f : Fault)
    (hf : fetchChecked odd s = .error f) : stepWith odd s = takeFetchFault s f := by
  unfold stepWith; simp [h, hm, hf]

/-- A step on an illegal word takes its fault after the base advance (R67). -/
theorem stepWith_illegal (odd : Config.OddFetch) (s : State) (h : s.loaded = true) (hm : s.mode = .running) (w : Word)
    (hf : fetchChecked odd s = .ok w) (hw : decodeWord w = none) : stepWith odd s = takeIllegal s.advance w := by
  unfold stepWith; simp [h, hm, hf, hw]

/-- A step on an instruction executes it after the base advance (R66). -/
theorem stepWith_exec (odd : Config.OddFetch) (s : State) (h : s.loaded = true) (hm : s.mode = .running) (w : Word)
    (hf : fetchChecked odd s = .ok w) (i : Instr) (hw : decodeWord w = some i) : stepWith odd s = exec i s.advance := by
  unfold stepWith; simp [h, hm, hf, hw]

/-- Everything a step can do. -/
theorem stepWith_cases (odd : Config.OddFetch) (s : State) :
    (s.loaded = false ∧ stepWith odd s = .refused .stepBeforeLoad) ∨
      (s.loaded = true ∧ s.mode ≠ .running ∧ stepWith odd s = .next s) ∨
      (s.loaded = true ∧ s.mode = .running ∧ ∃ f, fetchChecked odd s = .error f ∧ stepWith odd s = takeFetchFault s f) ∨
      (s.loaded = true ∧ s.mode = .running ∧ ∃ w, fetchChecked odd s = .ok w ∧ decodeWord w = none ∧
        stepWith odd s = takeIllegal s.advance w) ∨
      (s.loaded = true ∧ s.mode = .running ∧ ∃ w i, fetchChecked odd s = .ok w ∧ decodeWord w = some i ∧
        stepWith odd s = exec i s.advance) := by
  cases hl : s.loaded with
  | false => exact .inl ⟨rfl, stepWith_notLoaded odd s hl⟩
  | true =>
    refine .inr ?_
    cases hm : s.mode with
    | halted f => exact .inl ⟨rfl, by simp, stepWith_halted odd s hl f hm⟩
    | awaitingKey x => exact .inl ⟨rfl, by simp, stepWith_awaiting odd s hl x hm⟩
    | running =>
      refine .inr ?_
      cases hf : fetchChecked odd s with
      | error f => exact .inl ⟨rfl, rfl, f, rfl, stepWith_fetchFault odd s hl hm f hf⟩
      | ok w =>
        refine .inr ?_
        cases hw : decodeWord w with
        | none => exact .inl ⟨rfl, rfl, w, rfl, hw, stepWith_illegal odd s hl hm w hf hw⟩
        | some i => exact .inr ⟨rfl, rfl, w, i, rfl, hw, stepWith_exec odd s hl hm w hf i hw⟩

/-- An odd address and the low bit (R65): the fetch succeeds exactly where `FetchesAtPc` of Safety.lean says. -/
theorem fetchChecked_ok (odd : Config.OddFetch) (s : State) (h1 : s.pc.toNat ≤ 0xFFE)
    (h2 : s.pc.getLsbD 0 = false ∨ odd = .read) :
    fetchChecked odd s = .ok (joinBytes (s.mem.read s.pc.toNat) (s.mem.read (s.pc.toNat + 1))) := by
  unfold fetchChecked
  rw [if_neg (by omega), if_neg]
  rintro ⟨ha, hb⟩
  rcases h2 with h2 | h2
  · rw [h2] at ha; cases ha
  · rw [h2] at hb; cases hb

end Sys2Proof.Machine
end

