-- ==== Sys2Proof/Tests/Slice0.lean ====
section
/-! SUPPORT. The model's own tests. Expected words and results are copied from spec/: the encodings of spec/30_encoding.md R56 and
R57, the vectors of spec/95_test_vectors.md L2 (their labels stand in the comments), and the examples of files 41 to 45. The
`witness_…` theorems show, for each statement with hypotheses, a concrete input that meets them. -/

namespace Sys2Proof.Tests

-- One test at a time: many kernel evaluations at once would each hold a thread.
set_option Elab.async false

open Sys2Proof.Machine

/-! ### Decoding: a word per instruction, written out from its "Encoding" line -/

/-- 41 R75, R76: `0000 0000 1110 0000`, `1101 xxxx yyyy nnnn`. -/
theorem test_decode_display :
    decodeWord 0b0000000011100000#16 = some .cls ∧ decodeWord 0b1101011110101111#16 = some (.drw 7 10 15) := by decide

/-- 42 R79 to R86. -/
theorem test_decode_control :
    decodeWord 0b0000000011101110#16 = some .ret ∧ decodeWord 0b0001101010111100#16 = some (.jp 0xABC) ∧
      decodeWord 0b0010101010111100#16 = some (.call 0xABC) ∧ decodeWord 0b0011010111000011#16 = some (.seImm 5 0xC3) ∧
      decodeWord 0b0100010111000011#16 = some (.sneImm 5 0xC3) ∧ decodeWord 0b0101011010010000#16 = some (.seReg 6 9) ∧
      decodeWord 0b1001011010010000#16 = some (.sneReg 6 9) ∧ decodeWord 0b1011101010111100#16 = some (.jpV0 0xABC) := by
  decide

/-- 43 R89 to R94. -/
theorem test_decode_moves :
    decodeWord 0b0110010111000011#16 = some (.ldImm 5 0xC3) ∧ decodeWord 0b0111010111000011#16 = some (.addImm 5 0xC3) ∧
      decodeWord 0b1000011010010000#16 = some (.ldReg 6 9) ∧ decodeWord 0b1000011010010001#16 = some (.or 6 9) ∧
      decodeWord 0b1000011010010010#16 = some (.and 6 9) ∧ decodeWord 0b1000011010010011#16 = some (.xor 6 9) := by decide

/-- 43 R95 to R100. -/
theorem test_decode_flag_writers :
    decodeWord 0b1000011010010100#16 = some (.addReg 6 9) ∧ decodeWord 0b1000011010010101#16 = some (.sub 6 9) ∧
      decodeWord 0b1000011010010110#16 = some (.shr 6 9) ∧ decodeWord 0b1000011010010111#16 = some (.subn 6 9) ∧
      decodeWord 0b1000011010011110#16 = some (.shl 6 9) ∧ decodeWord 0b1100010111000011#16 = some (.rnd 5 0xC3) := by decide

/-- 44 R102 to R107. -/
theorem test_decode_index :
    decodeWord 0b1010101010111100#16 = some (.ldI 0xABC) ∧ decodeWord 0b1111110000011110#16 = some (.addI 12) ∧
      decodeWord 0b1111110000101001#16 = some (.ldF 12) ∧ decodeWord 0b1111110000110011#16 = some (.ldB 12) ∧
      decodeWord 0b1111110001010101#16 = some (.ldMemI 12) ∧ decodeWord 0b1111110001100101#16 = some (.ldIMem 12) := by decide

/-- 45 R108 to R113. -/
theorem test_decode_input :
    decodeWord 0b1110110010011110#16 = some (.skp 12) ∧ decodeWord 0b1110110010100001#16 = some (.sknp 12) ∧
      decodeWord 0b1111110000000111#16 = some (.ldVxDt 12) ∧ decodeWord 0b1111110000001010#16 = some (.ldVxK 12) ∧
      decodeWord 0b1111110000010101#16 = some (.ldDt 12) ∧ decodeWord 0b1111110000011000#16 = some (.ldSt 12) := by decide

/-- Big-endian bytes (20 R35, R51), the rest of the bytes kept; too few bytes and an illegal word are refused by name. -/
theorem test_decode_bytes :
    decode [0xA3#8, 0x0C#8, 0x77#8] = .ok (.ldI 0x30C, [0x77#8]) ∧ decode [0xA3#8] = .error .truncated ∧
      decode [0x51#8, 0x21#8] = .error (.unrecognized 0x5121#16) ∧ encodeBytes (.ldI 0x30C) = [0xA3#8, 0x0C#8] := by decide

/-! ### WellFormed: an ill-formed word for each check of R59's table -/

theorem test_wellFormed_class0 : legalWord 0x00E1#16 = false ∧ legalWord 0x0000#16 = false ∧ legalWord 0x0123#16 = false := by
  decide

theorem test_wellFormed_regSkip : legalWord 0x5121#16 = false ∧ legalWord 0x9128#16 = false := by decide

theorem test_wellFormed_class8 :
    legalWord 0x8128#16 = false ∧ legalWord 0x812D#16 = false ∧ legalWord 0x812F#16 = false ∧ legalWord 0x812E#16 = true := by
  decide

theorem test_wellFormed_classE : legalWord 0xE5A2#16 = false ∧ legalWord 0xE5A1#16 = true := by decide

theorem test_wellFormed_classF : legalWord 0xF0FF#16 = false ∧ legalWord 0xF00A#16 = true := by decide

/-! ### Small states -/

/-- A loaded machine at 0x200. -/
def base : State := { State.reset with loaded := true }

/-- The machine with the word `w` at `pc`, about to be fetched. -/
def at' (pc w : Word) (s : State) : State :=
  { s with pc := pc, mem := s.mem.writeBytes pc.toNat [highByte w, lowByte w] }

/-- `base` with those registers, written in order. -/
def regs (l : List (Reg × Byte)) : State := l.foldl (fun s p => s.setReg p.1 p.2) base

/-- `s` with those bytes at `a`, and I there. -/
def dataAt (a : Word) (bytes : List Byte) (s : State) : State :=
  { s with i := a, mem := s.mem.writeBytes a.toNat bytes }

/-- The result is a next state with the property. -/
def goes (r : Result) (p : State → Bool) : Bool :=
  match r with
  | .next t => p t
  | _ => false

theorem goes_next {r : Result} {p : State → Bool} (h : goes r p = true) : ∃ t, r = .next t := by
  cases r with
  | next t => exact ⟨t, rfl⟩
  | fault f => cases h
  | refused q => cases h

/-- The host call goes on, with that reply, to a state with the property. -/
def answers (r : HostResult) (reply : Reply) (p : State → Bool) : Bool :=
  match r with
  | .next (t, q) => q == reply && p t
  | _ => false

/-- The Screen with exactly those pixels lit. -/
def lit (l : List (Fin 64 × Fin 32)) : Screen := l.foldl (fun p q => p.setPixel q.1 q.2 true) Screen.blank

/-- The record of a fault at 0x200. -/
def faultAt200 (k : Fault) (w info : Word) : Mode := .halted { kind := k, pcInsn := 0x200, word := some w, info := info }

/-! ### One step of each instruction (spec/95_test_vectors.md L2) -/

/-- ST2's class, ST7: an illegal word halts after the base advance. -/
theorem test_step_illegal :
    goes (step (at' 0x200 0xF0FF base))
      (fun t => t.pc == 0x202 && t.mode == faultAt200 .unrecognizedInstruction 0xF0FF 0xF0FF) = true := by decide +kernel

/-- ST9, ST10: the fetch faults leave PC. -/
theorem test_step_fetchFaults :
    goes (step { base with pc := 0x1002 }) (fun t => t.pc == 0x1002 &&
        t.mode == .halted { kind := .fetchOutOfBounds, pcInsn := 0x1002, word := none, info := 0x1002 }) = true ∧
      goes (step { base with pc := 0x201 }) (fun t => t.pc == 0x201 &&
        t.mode == .halted { kind := .misalignedFetch, pcInsn := 0x201, word := none, info := 0x201 }) = true := by
  decide +kernel

/-- ST8, ST11: 0xFFF is out of bounds before it is odd; with `ODD_FETCH = read` the word at 0x201 runs. -/
theorem test_step_odd :
    goes (step { base with pc := 0xFFF }) (fun t => t.mode ==
        .halted { kind := .fetchOutOfBounds, pcInsn := 0xFFF, word := none, info := 0xFFF }) = true ∧
      goes (stepWith .read (at' 0x201 0x6001 base)) (fun t => t.reg 0 == 0x01 && t.pc == 0x203) = true := by decide +kernel

/-- DS1. -/
theorem test_cls :
    goes (step (at' 0x200 0x00E0 { base with screen := lit [(5, 7)] }))
      (fun t => !t.screen.pixel 5 7 && !t.screen.pixel 6 7 && t.redraw && t.pc == 0x202) = true := by decide +kernel

/-- DS3: wrap-around at the right edge, bit 7 leftmost. -/
theorem test_drw_wraps :
    goes (step (at' 0x200 0xD011 (dataAt 0x300 [0xF0] (regs [(0, 0x3E), (1, 0)]))))
      (fun t => t.screen.pixel 62 0 && t.screen.pixel 63 0 && t.screen.pixel 0 0 && t.screen.pixel 1 0 && !t.screen.pixel 2 0 &&
        !t.screen.pixel 61 0 && t.reg 0xF == 0 && t.redraw && t.pc == 0x202) = true := by
  decide +kernel

/-- DS10: VF names the coordinates as it was before the draw, and is written last. -/
theorem test_drw_vf_coordinates :
    goes (step (at' 0x200 0xDFF1 { dataAt 0x300 [0x80] (regs [(0xF, 0x01)]) with screen := lit [(1, 1)] }))
      (fun t => !t.screen.pixel 1 1 && t.reg 0xF == 0x01) = true := by decide +kernel

/-- CF1. -/
theorem test_ret : goes (step (at' 0x210 0x00EE { base with stack := [0x206] })) (fun t => t.pc == 0x206 && t.stack == []) = true := by
  decide +kernel

/-- CF2. -/
theorem test_ret_underflow :
    goes (step (at' 0x210 0x00EE base)) (fun t => t.pc == 0x212 &&
      t.mode == .halted { kind := .stackUnderflow, pcInsn := 0x210, word := some 0x00EE, info := 0x210 }) = true := by
  decide +kernel

/-- CF4: the odd target is no fault here. -/
theorem test_jp : goes (step (at' 0x200 0x1201 base)) (fun t => t.pc == 0x201 && t.mode == .running) = true := by decide +kernel

/-- CF6. -/
theorem test_call : goes (step (at' 0x204 0x2210 base)) (fun t => t.pc == 0x210 && t.stack == [0x206]) = true := by
  decide +kernel

/-- CF7. -/
theorem test_call_overflow :
    goes (step (at' 0x204 0x2210 { base with stack := List.replicate 16 0x202 })) (fun t => t.pc == 0x206 &&
      t.stack == List.replicate 16 0x202 &&
      t.mode == .halted { kind := .stackOverflow, pcInsn := 0x204, word := some 0x2210, info := 0x204 }) = true := by
  decide +kernel

/-- CF9, CF12: taken, and past the end of Memory. -/
theorem test_seImm :
    goes (step (at' 0x200 0x3310 (regs [(3, 0x10)]))) (fun t => t.pc == 0x204) = true ∧
      goes (step (at' 0xFFE 0x3300 base)) (fun t => t.pc == 0x1002) = true := by decide +kernel

/-- CF13, CF14. -/
theorem test_sneImm :
    goes (step (at' 0x200 0x4311 (regs [(3, 0x10)]))) (fun t => t.pc == 0x204) = true ∧
      goes (step (at' 0x200 0x4310 (regs [(3, 0x10)]))) (fun t => t.pc == 0x202) = true := by decide +kernel

/-- CF15, CF16. -/
theorem test_seReg :
    goes (step (at' 0x300 0x5120 (regs [(1, 0x7F), (2, 0x7F)]))) (fun t => t.pc == 0x304) = true ∧
      goes (step (at' 0x300 0x5120 (regs [(1, 0x7F), (2, 0x7E)]))) (fun t => t.pc == 0x302) = true := by decide +kernel

/-- CF18, CF19. -/
theorem test_sneReg :
    goes (step (at' 0x300 0x9120 (regs [(1, 1), (2, 2)]))) (fun t => t.pc == 0x304) = true ∧
      goes (step (at' 0x300 0x9120 (regs [(1, 2), (2, 2)]))) (fun t => t.pc == 0x302) = true := by decide +kernel

/-- CF22: no mask. -/
theorem test_jpV0 : goes (step (at' 0x200 0xBFFF (regs [(0, 0xFF)]))) (fun t => t.pc == 0x10FE) = true := by decide +kernel

/-- CF24: V0 is added, not V2. -/
theorem test_jpV0_base : goes (step (at' 0x200 0xB2FF (regs [(0, 0x01), (2, 0x50)]))) (fun t => t.pc == 0x300) = true := by
  decide +kernel

/-- AL1. -/
theorem test_ldImm : goes (step (at' 0x200 0x6A9C base)) (fun t => t.reg 0xA == 0x9C) = true := by decide +kernel

/-- AL3: no flag. -/
theorem test_addImm :
    goes (step (at' 0x200 0x71FF (regs [(1, 0x05), (0xF, 0x55)]))) (fun t => t.reg 1 == 0x04 && t.reg 0xF == 0x55) = true := by
  decide +kernel

/-- AL5. -/
theorem test_ldReg : goes (step (at' 0x200 0x8120 (regs [(2, 0x33)]))) (fun t => t.reg 1 == 0x33) = true := by decide +kernel

/-- AL6: VF is not reset. -/
theorem test_or :
    goes (step (at' 0x200 0x8121 (regs [(1, 0x0F), (2, 0xF0), (0xF, 1)]))) (fun t => t.reg 1 == 0xFF && t.reg 0xF == 1) = true := by
  decide +kernel

/-- AL7. -/
theorem test_and :
    goes (step (at' 0x200 0x8122 (regs [(1, 0x3C), (2, 0x0F), (0xF, 1)]))) (fun t => t.reg 1 == 0x0C && t.reg 0xF == 1) = true := by
  decide +kernel

/-- AL8. -/
theorem test_xor :
    goes (step (at' 0x200 0x8123 (regs [(1, 0xFF), (2, 0x0F), (0xF, 1)]))) (fun t => t.reg 1 == 0xF0 && t.reg 0xF == 1) = true := by
  decide +kernel

/-- AL10. -/
theorem test_addReg :
    goes (step (at' 0x200 0x8124 (regs [(1, 0xC8), (2, 0x64)]))) (fun t => t.reg 1 == 0x2C && t.reg 0xF == 1) = true := by
  decide +kernel

/-- AL14: with destination VF the sum stays. -/
theorem test_addReg_vf : goes (step (at' 0x200 0x8F14 (regs [(0xF, 0xF0), (1, 0x20)]))) (fun t => t.reg 0xF == 0x10) = true := by
  decide +kernel

/-- AL17. -/
theorem test_sub :
    goes (step (at' 0x200 0x8125 (regs [(1, 0x03), (2, 0x0A)]))) (fun t => t.reg 1 == 0xF9 && t.reg 0xF == 0) = true := by
  decide +kernel

/-- AL18: the comparison is strict. -/
theorem test_sub_equal :
    goes (step (at' 0x200 0x8125 (regs [(1, 0x44), (2, 0x44), (0xF, 1)]))) (fun t => t.reg 1 == 0 && t.reg 0xF == 0) = true := by
  decide +kernel

/-- AL21: y is not read. -/
theorem test_shr :
    goes (step (at' 0x200 0x8156 (regs [(1, 0x04), (5, 0xFF), (0xF, 1)])))
      (fun t => t.reg 1 == 0x02 && t.reg 0xF == 0 && t.reg 5 == 0xFF) = true := by decide +kernel

/-- AL22: with destination VF the result stays. -/
theorem test_shr_vf : goes (step (at' 0x200 0x8F06 (regs [(0xF, 0x03)]))) (fun t => t.reg 0xF == 0x01) = true := by decide +kernel

/-- AL23: the destination is Vy. -/
theorem test_subn :
    goes (step (at' 0x200 0x8127 (regs [(1, 0x03), (2, 0x0A)])))
      (fun t => t.reg 2 == 0x07 && t.reg 0xF == 1 && t.reg 1 == 0x03) = true := by decide +kernel

/-- AL27: with destination Vy = VF the difference stays. -/
theorem test_subn_vf : goes (step (at' 0x200 0x81F7 (regs [(1, 0x01), (0xF, 0x05)]))) (fun t => t.reg 0xF == 0x04) = true := by
  decide +kernel

/-- AL28. -/
theorem test_shl : goes (step (at' 0x200 0x810E (regs [(1, 0x81)]))) (fun t => t.reg 1 == 0x02 && t.reg 0xF == 1) = true := by
  decide +kernel

/-- AL30. -/
theorem test_shl_vf : goes (step (at' 0x200 0x8FFE (regs [(0xF, 0xC0)]))) (fun t => t.reg 0xF == 0x80) = true := by decide +kernel

/-- AL32: whatever the draw, a zero mask gives zero. -/
theorem test_rnd_mask0 : ∃ t, exec (.rnd 3 0x00) base = .next t ∧ t.reg 3 = 0x00 := ⟨_, rfl, by simp⟩

/-- AL33: a full mask gives the draw itself, and the next draw is another one. -/
theorem test_rnd : ∃ t, exec (.rnd 3 0xFF) base = .next t ∧ t.reg 3 = Config.randByte 0 ∧ t.draws = 1 :=
  ⟨_, rfl, by rw [State.reg_setReg, if_pos rfl]; exact BitVec.and_allOnes, rfl⟩

/-- MM1. -/
theorem test_ldI : goes (step (at' 0x200 0xA300 base)) (fun t => t.i == 0x0300) = true := by decide +kernel

/-- MM3, MM4: no flag and no mask to 12 bits; the wrap at 16 bits. -/
theorem test_addI :
    goes (step (at' 0x200 0xF11E { regs [(1, 0x01)] with i := 0x0FFF })) (fun t => t.i == 0x1000 && t.reg 0xF == 0) = true ∧
      goes (step (at' 0x200 0xF21E { regs [(2, 0x02)] with i := 0xFFFF })) (fun t => t.i == 0x0001) = true := by decide +kernel

/-- MM6, MM7. -/
theorem test_ldF :
    goes (step (at' 0x200 0xF029 (regs [(0, 0x0F)]))) (fun t => t.i == 0x004B) = true ∧
      goes (step (at' 0x200 0xF029 (regs [(0, 0xFF)]))) (fun t => t.i == 0x04FB) = true := by decide +kernel

/-- MM8. -/
theorem test_ldB :
    goes (step (at' 0x200 0xFA33 { regs [(0xA, 0x9C)] with i := 0x300 }))
      (fun t => t.mem.readBytes 0x300 3 == [0x01, 0x05, 0x06] && t.i == 0x300) = true := by decide +kernel

/-- MM12. -/
theorem test_ldB_range :
    goes (step (at' 0x200 0xF033 { regs [(0, 0x01)] with i := 0xFFE })) (fun t => t.pc == 0x202 &&
      t.mem.readBytes 0xFFE 2 == [0, 0] && t.mode == faultAt200 .memoryOutOfBounds 0xF033 0x1000) = true := by decide +kernel

/-- MM13. -/
theorem test_ldMemI :
    goes (step (at' 0x200 0xF255 { regs [(0, 0x11), (1, 0x22), (2, 0x33), (3, 0x44)] with i := 0x400 }))
      (fun t => t.mem.readBytes 0x400 4 == [0x11, 0x22, 0x33, 0x00] && t.i == 0x400) = true := by decide +kernel

/-- MM20: the next fetch sees the store. -/
theorem test_ldMemI_fetch :
    goes (step (at' 0x200 0xF055 { regs [(0, 0x60)] with i := 0x202 }))
      (fun t => goes (step t) (fun u => u.reg 0 == 0x00 && u.pc == 0x204)) = true := by decide +kernel

/-- MM17. -/
theorem test_ldIMem :
    goes (step (at' 0x200 0xF265 (dataAt 0x300 [0x01, 0x05, 0x06, 0x07] base)))
      (fun t => t.reg 0 == 0x01 && t.reg 1 == 0x05 && t.reg 2 == 0x06 && t.reg 3 == 0x00 && t.i == 0x300) = true := by
  decide +kernel

/-- MM19: the first address above 0xFFF is I itself. -/
theorem test_ldIMem_range :
    goes (step (at' 0x200 0xF165 { base with i := 0x1001 }))
      (fun t => t.mode == faultAt200 .memoryOutOfBounds 0xF165 0x1001 && t.v == base.v) = true := by decide +kernel

/-- KT1, KT2. -/
theorem test_skp :
    goes (step (at' 0x200 0xE59E { regs [(5, 0x0A)] with keys := base.keys.set 0xA true })) (fun t => t.pc == 0x204) = true ∧
      goes (step (at' 0x200 0xE59E (regs [(5, 0x0A)]))) (fun t => t.pc == 0x202) = true := by decide +kernel

/-- KT5. -/
theorem test_skp_range :
    goes (step (at' 0x200 0xE59E (regs [(5, 0x10)])))
      (fun t => t.pc == 0x202 && t.mode == faultAt200 .keyIndexOutOfRange 0xE59E 0x10) = true := by decide +kernel

/-- KT3, KT4. -/
theorem test_sknp :
    goes (step (at' 0x200 0xE5A1 (regs [(5, 0x0A)]))) (fun t => t.pc == 0x204) = true ∧
      goes (step (at' 0x200 0xE5A1 { regs [(5, 0x0A)] with keys := base.keys.set 0xA true })) (fun t => t.pc == 0x202) = true := by
  decide +kernel

/-- KT6. -/
theorem test_ldVxDt : goes (step (at' 0x200 0xF307 { base with dt := 0x3C })) (fun t => t.reg 3 == 0x3C) = true := by decide +kernel

/-- KT7, and the no-op step of ST13. -/
theorem test_ldVxK :
    goes (step (at' 0x200 0xF30A base)) (fun t => t.pc == 0x202 && t.mode == .awaitingKey 3 && t.reg 3 == 0 &&
      goes (step t) (fun u => u == t)) = true := by decide +kernel

/-- KT13. -/
theorem test_ldDt : goes (step (at' 0x200 0xF015 (regs [(0, 0x07)]))) (fun t => t.dt == 0x07 && t.st == 0) = true := by decide +kernel

/-- KT14. -/
theorem test_ldSt : goes (step (at' 0x200 0xF418 (regs [(4, 0x1E)]))) (fun t => t.st == 0x1E && toneOn t && t.dt == 0) = true := by
  decide +kernel

/-! ### The host interface (spec/95_test_vectors.md L2.6, L2.7) -/

/-- KT8, KT11. -/
theorem test_resolveKey :
    answers (hostCall .fault (.resolveKey 7) { base with mode := .awaitingKey 3 }) .nothing
        (fun t => t.reg 3 == 0x07 && t.mode == .running && t.keys == base.keys) = true ∧
      answers (hostCall .fault (.setKey 0xA true) { base with mode := .awaitingKey 3 }) .nothing
        (fun t => t.key 0xA && t.mode == .awaitingKey 3) = true := by decide +kernel

/-- KT9, KT10, KT12, LD6. -/
theorem test_refusals :
    hostCall .fault (.resolveKey 7) base = .refused .resolveKeyNotAwaiting ∧
      hostCall .fault (.resolveKey 0x10) { base with mode := .awaitingKey 3 } = .refused .resolveKeyValue ∧
      hostCall .fault (.setKey 16 true) base = .refused .setKeyIndex ∧
      hostCall .fault .step State.reset = .refused .stepBeforeLoad := ⟨rfl, rfl, rfl, rfl⟩

/-- KT15, KT16, KT17. -/
theorem test_tickTimers :
    answers (hostCall .fault .tickTimers { base with dt := 1 }) .nothing (fun t => t.dt == 0 && t.st == 0) = true ∧
      answers (hostCall .fault .tickTimers base) .nothing (fun t => t == base) = true ∧
      answers (hostCall .fault .tickTimers { base with dt := 5, st := 2, mode := .awaitingKey 0 }) .nothing
        (fun t => t.dt == 4 && t.st == 1) = true := by decide +kernel

/-- LD1: glyph 0 and the first byte after the font. -/
theorem test_construct :
    State.reset.mem.readBytes 0 5 = [0xF0, 0x90, 0x90, 0x90, 0xF0] ∧ State.reset.mem.read 0x04F = 0x80 ∧
      State.reset.mem.read 0x050 = 0x00 ∧ State.reset.pc = 0x200 := by decide +kernel

/-- LD4 and a short ROM: bytes past it keep their construction value. -/
theorem test_load :
    answers (hostCall .fault (.load []) State.reset) .success (fun t => t == base) = true ∧
      answers (hostCall .fault (.load [0x12, 0x00]) State.reset) .success
        (fun t => t.mem.readBytes 0x1FF 4 == [0x00, 0x12, 0x00, 0x00] && t.loaded && t.pc == 0x200) = true := by decide +kernel

/-- LD2 and LD3: 3584 bytes load, 3585 do not and change nothing. -/
theorem test_load_bounds (odd : Config.OddFetch) :
    (∃ t, hostCall odd (.load (List.replicate 3584 0xAA#8)) State.reset = .next (t, .success)) ∧
      hostCall odd (.load (List.replicate 3585 0xAA#8)) State.reset = .next (State.reset, .loadTooLarge) := by
  constructor
  · refine ⟨State.reset.loadRom (List.replicate 3584 0xAA#8), ?_⟩
    show load _ _ = _
    unfold load
    rw [if_neg (by decide), if_neg (by rw [List.length_replicate]; decide)]
  · show load _ _ = _
    unfold load
    rw [if_neg (by decide), if_pos (by rw [List.length_replicate]; decide)]

/-- The placed word of an opcode-table row runs as the first instruction after reset. -/
theorem test_withFetchWord :
    decodeTableWord 16 0x6A9C = some (.ldImm 0xA 0x9C) ∧ decodeTableWord 16 0x5121 = none ∧
      goes (step (State.reset.withFetchWord 16 0x6A9C)) (fun t => t.reg 0xA == 0x9C && t.pc == 0x202) = true := by decide +kernel

/-! ### Witnesses: inputs that meet the hypotheses of each statement, at the boundaries of its clauses -/

/-- DS7, DS9, DS8: `n = 0` anywhere, the last range that fits, the first that does not. -/
theorem witness_DrawXorsSpriteAndSetsCollision :
    ((0x0#4 = 0x0#4 ∨ ({ base with i := 0xFFFF } : State).i.toNat + (0x0#4).toNat - 1 ≤ 0xFFF) ∧
        ((0xE#4 : Nibble) ≠ 0 ∧ ({ base with i := 0xFF2 } : State).i.toNat + (0xE#4).toNat - 1 ≤ 0xFFF)) ∧
      ((0xF#4 : Nibble) ≠ 0x0#4 ∧ ({ base with i := 0xFF2 } : State).i.toNat + (0xF#4).toNat - 1 > 0xFFF) := by decide

/-- A sprite `80` at (0, 0), and that pixel lit. -/
def overLitPixel : State := { dataAt 0x300 [0x80] base with screen := lit [(0, 0)] }

/-- `overLitPixel` after one draw, and after two. -/
def afterOneDraw : State := drawSprite overLitPixel 0 0 [0x80]
def afterTwoDraws : State := drawSprite afterOneDraw 0 0 [0x80]

theorem sprite_lands : SpriteLandsOn overLitPixel 0 0 1 0 0 := ⟨0, 0, by decide, by decide, by decide, rfl, rfl⟩

/-- A lit pixel under a 1-bit (the collision clause), and the same sprite over a dark Screen (no collision). -/
theorem witness_DrawCollisionClauses :
    (∃ px py, SpriteLandsOn overLitPixel 0 0 1 px py ∧ overLitPixel.screen.pixel px py = true) ∧
      ¬ ∃ px py, SpriteLandsOn base 0 0 0 px py ∧ base.screen.pixel px py = true :=
  ⟨⟨0, 0, sprite_lands, by decide⟩, fun ⟨_, _, ⟨_, _, h, _⟩, _⟩ => absurd h (Nat.not_lt_zero _)⟩

/-- Hypotheses of the double draw, with a 1-bit over a dark pixel and, at the other place, none. -/
theorem witness_DrawingTwiceRestoresScreen :
    ((0x0 : Reg) ≠ 0xF ∧ (0x1#4 = 0x0#4 ∨ (dataAt 0x300 [0x80] base).i.toNat + (0x1#4).toNat - 1 ≤ 0xFFF)) ∧
      (∃ px py, SpriteLandsOn (dataAt 0x300 [0x80] base) 0 0 1 px py ∧
        (dataAt 0x300 [0x80] base).screen.pixel px py = false) ∧
      ¬ ∃ px py, SpriteLandsOn base 0 0 0 px py ∧ base.screen.pixel px py = false :=
  ⟨by decide, ⟨0, 0, ⟨0, 0, by decide, by decide, by decide, rfl, rfl⟩, by decide⟩,
    fun ⟨_, _, ⟨_, _, h, _⟩, _⟩ => absurd h (Nat.not_lt_zero _)⟩

/-- Every hypothesis of the sentence of R76 is met here, and its conclusion is false: VF is 0 after the second draw (log
entry 16). -/
theorem witness_SecondDrawCollidesWheneverSpriteHasABit :
    ((0x0 : Reg) ≠ 0xF ∧ overLitPixel.i.toNat + (0x1#4).toNat - 1 ≤ 0xFFF) ∧ (∃ px py, SpriteLandsOn overLitPixel 0 0 1 px py) ∧
      exec (.drw 0 0 1) overLitPixel = .next afterOneDraw ∧ exec (.drw 0 0 1) afterOneDraw = .next afterTwoDraws ∧
      afterTwoDraws.reg 0xF = 0x00#8 :=
  ⟨by decide, ⟨0, 0, sprite_lands⟩, rfl, rfl, by decide +kernel⟩

theorem witness_ReturnPopsPcOrUnderflows :
    ({ base with stack := [0x206, 0x302] } : State).stack = [0x206] ++ [0x302] ∧ base.stack = [] := ⟨rfl, rfl⟩

/-- A stack with one entry free, and a full one. -/
theorem witness_CallPushesAdvancedPcOrOverflows :
    ({ base with stack := List.replicate 15 0x202 } : State).stack.length < 16 ∧
      ({ base with stack := List.replicate 16 0x202 } : State).stack.length = 16 := by decide

/-- P2's call: 2210 at 0x204, 00EE at 0x210. -/
theorem witness_CallThenReturnComesBack :
    (at' 0x204 0x2210 (at' 0x210 0x00EE base)).loaded = true ∧ (at' 0x204 0x2210 (at' 0x210 0x00EE base)).mode = .running ∧
      FetchesAtPc .fault (at' 0x204 0x2210 (at' 0x210 0x00EE base)) ∧
      wordAtPc (at' 0x204 0x2210 (at' 0x210 0x00EE base)) = 0x2#4 ++ 0x210#12 ∧
      (at' 0x204 0x2210 (at' 0x210 0x00EE base)).stack.length < 16 ∧
      FetchesAtPc .fault { at' 0x204 0x2210 (at' 0x210 0x00EE base) with pc := (0x210#12).setWidth 16 } ∧
      wordAtPc { at' 0x204 0x2210 (at' 0x210 0x00EE base) with pc := (0x210#12).setWidth 16 } = 0x00EE#16 :=
  ⟨rfl, rfl, by unfold FetchesAtPc; decide, by decide +kernel, by decide, by unfold FetchesAtPc; decide, by decide +kernel⟩

/-- AL10, AL14's form: with destination VF the flag clauses are not asked, with any other they are. -/
theorem witness_AddWritesSumAndCarry : (0x1 : Reg) ≠ 0xF := by decide

theorem witness_SubtractionsWriteDifferenceAndStrictFlag : (0x1 : Reg) ≠ 0xF ∧ (0x2 : Reg) ≠ 0xF := by decide

theorem witness_ShiftsWriteResultAndShiftedOutBit : (0xE : Reg) ≠ 0xF := by decide

/-- MM11 and MM12: the last I that fits, the first that does not. -/
theorem witness_DecimalStoreWritesThreeDigits :
    ({ base with i := 0xFFD } : State).i.toNat + 2 ≤ 0xFFF ∧ ({ base with i := 0xFFE } : State).i.toNat + 2 > 0xFFF := by decide

/-- MM15 and MM16. -/
theorem witness_RegisterStoreWritesRangeAndKeepsI :
    (({ base with i := 0xFF0 } : State).i.toNat + (0xF : Reg).toNat ≤ 0xFFF ∧ (0xF : Reg).toNat ≤ (0xF : Reg).toNat) ∧
      ({ base with i := 0xFF1 } : State).i.toNat + (0xF : Reg).toNat > 0xFFF := by decide

/-- MM18's form and MM19: the last byte of Memory, and one past it. -/
theorem witness_RegisterLoadReadsRangeAndKeepsI :
    (({ base with i := 0xFFF } : State).i.toNat + (0x0 : Reg).toNat ≤ 0xFFF ∧ (0x0 : Reg).toNat ≤ (0x0 : Reg).toNat) ∧
      ({ base with i := 0x1000 } : State).i.toNat + (0x0 : Reg).toNat > 0xFFF := by decide

theorem witness_StoreThenLoadRestoresRegisters :
    ({ base with i := 0xFF0 } : State).i.toNat + (0xF : Reg).toNat ≤ 0xFFF ∧
      ∃ t, exec (.ldMemI 0xF) { base with i := 0xFF0 } = .next t ∧ ∃ u : State, u.mem = t.mem ∧ u.i = t.i :=
  ⟨by decide, _, rfl, _, rfl, rfl⟩

/-- MM20: the fetch at 0x202 with I there; and one clause each for a fetch that begins inside, or one byte before, the stored
range. -/
theorem witness_StoresAreSeenByLaterFetch :
    FetchesAtPc .fault { base with i := 0x202, pc := 0x202 } ∧
      (0x202 + (0x0 : Reg).toNat ≤ 0xFFF ∧ (0x202#16).toNat = (0x202#16).toNat + (0x0 : Reg).toNat) ∧
      ((0x202#16).toNat + 1 = (0x203#16).toNat + (0x0 : Reg).toNat) ∧
      (0x202 + 2 ≤ 0xFFF ∧ (0x202#16).toNat = (0x201#16).toNat + 1 ∧ (0x202#16).toNat = (0x200#16).toNat + 2 ∧
        (0x202#16).toNat + 1 = (0x203#16).toNat) := ⟨by unfold FetchesAtPc; decide, by decide, by decide, by decide⟩

/-- The highest key and the first value that names none. -/
theorem witness_KeySkipsTestKeyOrFault :
    ((regs [(5, 0x0F)]).reg 5).toNat = (15 : Fin 16).val ∧ ((regs [(5, 0x10)]).reg 5).toNat > 0xF := by decide

/-- A machine awaiting a key for V3, and one halted. -/
def waiting : State := { base with mode := .awaitingKey 3 }
def halted : State := { base with mode := faultAt200 .stackUnderflow 0x00EE 0x200, pc := 0x202 }

theorem witness_KeyWaitSuspendsUntilResolved : waiting.mode = .awaitingKey 3 ∧ waiting.loaded = true ∧ 15 ≤ 15 := by decide

theorem witness_StepRunsDecodedInstructionAfterBaseAdvance :
    (at' 0xFFE 0x6001 base).loaded = true ∧ (at' 0xFFE 0x6001 base).mode = .running ∧
      FetchesAtPc .fault (at' 0xFFE 0x6001 base) ∧ decodeWord (wordAtPc (at' 0xFFE 0x6001 base)) = some (.ldImm 0 1) ∧
      (.fault : Config.OddFetch) = Config.oddFetch :=
  ⟨rfl, rfl, by unfold FetchesAtPc; decide, by decide +kernel, rfl⟩

/-- ST8, ST10, ST11, ST12, and a running machine whose fetch fails. -/
theorem witness_FetchChecksRangeThenAlignment :
    (0xFFF#16).toNat > 0xFFE ∧ ((0x201#16).toNat ≤ 0xFFE ∧ (0x201#16).getLsbD 0 = true) ∧
      ((0xFFE#16).toNat ≤ 0xFFE ∧ (0xFFE#16).getLsbD 0 = false) ∧ ((0xFFD#16).toNat ≤ 0xFFE ∧ (0xFFD#16).getLsbD 0 = true) ∧
      (base.loaded = true ∧ base.mode = .running ∧ fetchChecked .fault { base with pc := 0xFFF } = .error .fetchOutOfBounds) :=
  ⟨by decide, by decide, by decide, by decide, rfl, rfl, rfl⟩

/-- P6: the word 0x0000. -/
theorem witness_IllegalWordHaltsAfterBaseAdvance :
    base.loaded = true ∧ base.mode = .running ∧ FetchesAtPc .fault base ∧ decodeWord (wordAtPc base) = none :=
  ⟨rfl, rfl, by unfold FetchesAtPc; decide, by decide +kernel⟩

/-- ST13 and ST14; a host call that goes on while halted. -/
theorem witness_WaitingAndHaltedStepsChangeNothing :
    (waiting.loaded = true ∧ waiting.mode = .awaitingKey 3) ∧
      (halted.loaded = true ∧ halted.mode = faultAt200 .stackUnderflow 0x00EE 0x200) ∧
      hostCall .fault .tickTimers halted = .next (halted, .nothing) := ⟨⟨rfl, rfl⟩, ⟨rfl, rfl⟩, rfl⟩

theorem witness_HaltedMachineIsFrozen :
    halted.loaded = true ∧ halted.mode = faultAt200 .stackUnderflow 0x00EE 0x200 ∧
      hostRun .fault [.step, .tickTimers, .setKey 1 true, .clearRedrawFlag, .readPc] halted = .next halted := ⟨rfl, rfl, rfl⟩

/-- KT7, KT8 and the halted rows of R63's table. -/
theorem witness_ModeChangesOnlyAsListed :
    hostCall .fault .tickTimers base = .next (tickTimers base, .nothing) ∧
      (base.loaded = true ∧ base.mode = .running ∧ FetchesAtPc .fault (at' 0x200 0xF30A base) ∧
        decodeWord (wordAtPc (at' 0x200 0xF30A base)) = some (.ldVxK 3)) ∧
      (waiting.mode = .awaitingKey 3 ∧ waiting.loaded = true ∧ 15 ≤ 15) ∧
      (fetchChecked .fault { base with pc := 0xFFF } = .error .fetchOutOfBounds ∧
        (FetchesAtPc .fault base ∧ decodeWord (wordAtPc base) = none) ∧
        FetchesAtPc .fault (at' 0x210 0x00EE base) ∧ decodeWord (wordAtPc (at' 0x210 0x00EE base)) = some .ret ∧
        ownFault .ret (at' 0x210 0x00EE base) = some .stackUnderflow) ∧
      (halted.loaded = true ∧ halted.mode = faultAt200 .stackUnderflow 0x00EE 0x200 ∧
        hostCall .fault .readI halted = .next (halted, .word halted.i)) :=
  ⟨rfl, ⟨rfl, rfl, by unfold FetchesAtPc; decide, by decide +kernel⟩, by decide,
    ⟨rfl, ⟨by unfold FetchesAtPc; decide, by decide +kernel⟩, by unfold FetchesAtPc; decide, by decide +kernel, rfl⟩,
    rfl, rfl, rfl⟩

/-- CF2: a running machine whose step raises a fault. -/
theorem witness_FaultsArePreciseAndReturned :
    base.mode = .running ∧ ∃ t f, step (at' 0x200 0x00EE base) = .next t ∧ t.mode = .halted f := ⟨rfl, _, _, rfl, rfl⟩

/-- A fault of each check of R117: range, alignment, illegal word, and the instruction's own. -/
theorem witness_FaultChecksComeInOrder :
    (∃ t f, step { base with pc := 0xFFF } = .next t ∧ t.mode = .halted f) ∧
      (∃ t f, step { base with pc := 0x201 } = .next t ∧ t.mode = .halted f) ∧
      (∃ t f, step (at' 0x200 0xF0FF base) = .next t ∧ t.mode = .halted f) ∧
      (∃ t f, step (at' 0x200 0xE59E (regs [(5, 0x10)])) = .next t ∧ t.mode = .halted f) :=
  ⟨⟨_, _, rfl, rfl⟩, ⟨_, _, rfl, rfl⟩, ⟨_, _, rfl, rfl⟩, ⟨_, _, rfl, rfl⟩⟩

theorem witness_TimerTickCountsDownNonzeroTimers :
    (∃ f, halted.mode = .halted f) ∧ ¬ ∃ f, ({ waiting with dt := 1, st := 0 } : State).mode = .halted f :=
  ⟨⟨_, rfl⟩, fun ⟨_, h⟩ => by cases h⟩

/-- KT14: 30 ticks. -/
theorem witness_ToneLastsExactlyTheTicksLoaded :
    (¬ ∃ f, (regs [(4, 0x1E)]).mode = .halted f) ∧ toneOn (tickTimers^[29] { base with st := 0x1E }) = true ∧
      toneOn (tickTimers^[30] { base with st := 0x1E }) = false := ⟨(fun ⟨_, h⟩ => by cases h), by decide +kernel, by decide +kernel⟩

theorem witness_SetKeyWritesOneKey :
    16 > 15 ∧ (¬ ∃ f, waiting.mode = .halted f) ∧ ∃ f, halted.mode = .halted f :=
  ⟨by decide, (fun ⟨_, h⟩ => by cases h), _, rfl⟩

theorem witness_ResolveKeyWritesLatchedRegister :
    (waiting.mode = .awaitingKey 3 ∧ 15 ≤ 15 ∧ 16 > 15) ∧ (∀ x, base.mode ≠ .awaitingKey x) ∧ ∀ x, halted.mode ≠ .awaitingKey x :=
  ⟨by decide, (fun _ h => by cases h), (fun _ h => by cases h)⟩

theorem witness_HostCallsOutsideTheInterfaceAreRefused :
    State.reset.loaded = false ∧ base.loaded = true ∧ stepWith .fault halted = .next halted ∧
      (∀ x, base.mode ≠ .awaitingKey x) ∧ waiting.mode = .awaitingKey 3 := ⟨rfl, rfl, rfl, (fun _ h => by cases h), rfl⟩

theorem witness_HostReadsHaveNoSideEffect : ¬ ∃ f, ({ base with redraw := true } : State).mode = .halted f :=
  fun ⟨_, h⟩ => by cases h

/-- The ends of the range of unlisted zeros. -/
theorem witness_ConstructionLeavesTheListedValues : (0x050 ≤ 0x050 ∧ 0x050 ≤ 0xFFF) ∧ 0x050 ≤ 0xFFF ∧ 0xFFF ≤ 0xFFF := by decide

/-- LD2 and LD3. -/
theorem witness_LoadCopiesWholeRomOrNothing :
    base.loaded = true ∧ State.reset.loaded = false ∧ (List.replicate 3584 0xAA#8).length ≤ 3584 ∧ (List.replicate 3585 0xAA#8).length > 3584 ∧
      ([0x12#8, 0x00#8])[1]? = some 0x00#8 :=
  ⟨rfl, rfl, by rw [List.length_replicate], by rw [List.length_replicate]; decide, rfl⟩

theorem witness_LaunchStateIsConstructionThenLoad :
    (List.replicate 3584 0xAA#8).length ≤ 3584 ∧ ([] : List Byte).length ≤ 3584 ∧ ([0x12#8, 0x00#8])[0]? = some 0x12#8 :=
  ⟨by rw [List.length_replicate], by decide, rfl⟩

/-- P1's end: the self-jump 120C at 0x20C. -/
theorem witness_OverRunStepsChangeNothing : base.loaded = true ∧ isOver 0x20C (at' 0x20C 0x120C base) :=
  ⟨rfl, rfl, by decide, by decide, by decide, by decide +kernel⟩

theorem witness_PlacedWordIsTheNextInstructionRun :
    decodeTableWord 16 0xF30A = some (.ldVxK 3) ∧ FetchesAtPc Config.oddFetch State.reset :=
  ⟨by decide, by unfold FetchesAtPc; decide⟩

/-- The invariant holds at launch, while awaiting and after a fault, and steps from there go on. -/
theorem witness_EveryStepKeepsTheInvariant :
    StateInv waiting ∧ StateInv halted ∧ stepWith .fault waiting = .next waiting ∧ stepWith .fault halted = .next halted :=
  ⟨⟨rfl, by decide, fun _ => rfl, trivial⟩, ⟨rfl, by decide, fun _ => rfl, by constructor <;> decide⟩, rfl, rfl⟩

/-- Calls that go on from states with the invariant: a key resolved, a load before any step. -/
theorem witness_EveryHostCallKeepsTheInvariant :
    (StateInv waiting ∧ ∃ t, hostCall .fault (.resolveKey 7) waiting = .next (t, .nothing)) ∧
      StateInv State.reset ∧ ∃ t, hostCall .read (.load [0x12, 0x00]) State.reset = .next (t, .success) :=
  ⟨⟨⟨rfl, by decide, fun _ => rfl, trivial⟩, _, rfl⟩, ⟨rfl, by decide, fun h => absurd rfl h, trivial⟩, _, rfl⟩

/-- Each check at the edge where it fails and where it does not (R24, R25, R43, R108). -/
theorem witness_InstructionsFaultExactlyWhenTheirCheckFails :
    (ownFault .ret base = some .stackUnderflow ∧ ownFault .ret { base with stack := [0x206] } = none) ∧
      (ownFault (.call 0x200) { base with stack := List.replicate 16 0x202 } = some .stackOverflow ∧
        ownFault (.call 0x200) { base with stack := List.replicate 15 0x202 } = none) ∧
      (ownFault (.drw 0 0 0xF) { base with i := 0xFF2 } = some .memoryOutOfBounds ∧
        ownFault (.drw 0 0 0xE) { base with i := 0xFF2 } = none ∧ ownFault (.drw 0 0 0) { base with i := 0xFFFF } = none) ∧
      (ownFault (.ldB 0) { base with i := 0xFFE } = some .memoryOutOfBounds ∧ ownFault (.ldB 0) { base with i := 0xFFD } = none) ∧
      (ownFault (.ldMemI 0xF) { base with i := 0xFF1 } = some .memoryOutOfBounds ∧
        ownFault (.ldMemI 0xF) { base with i := 0xFF0 } = none) ∧
      (ownFault (.ldIMem 0) { base with i := 0x1000 } = some .memoryOutOfBounds ∧
        ownFault (.ldIMem 0) { base with i := 0xFFF } = none) ∧
      (ownFault (.skp 5) (regs [(5, 0x10)]) = some .keyIndexOutOfRange ∧ ownFault (.skp 5) (regs [(5, 0x0F)]) = none) ∧
      (ownFault (.sknp 5) (regs [(5, 0x10)]) = some .keyIndexOutOfRange ∧ ownFault (.sknp 5) (regs [(5, 0x0F)]) = none) ∧
      base.mode = .running := by decide +kernel

/-- A session: load P6's ROM, step into the fault, tick. -/
theorem witness_EveryHostSessionKeepsTheInvariant :
    ∃ t, hostRun .fault [.load [0x00, 0x00], .step, .tickTimers] (construct Config.defaultFont {}) = .next t :=
  goes_next (p := fun t => t.loaded) (by decide +kernel)

theorem witness_EngineAndHostWriteOnlyTheirOwnState :
    waiting.loaded = true ∧ hostCall .fault .step waiting = .next (waiting, .nothing) ∧
      ∃ t, hostCall .fault (.resolveKey 7) waiting = .next (t, .nothing) ∧ t.reg 3 ≠ waiting.reg 3 :=
  ⟨rfl, rfl, _, rfl, by decide⟩

/-- AL2: VF changes as the named destination. -/
theorem witness_FlagsRegisterChangesOnlyWhereListed :
    ∃ t, exec (.ldImm 0xF 0xFF) base = .next t ∧ t.reg 0xF ≠ base.reg 0xF := ⟨_, rfl, by decide⟩

theorem witness_NoStepReadsSoundTimerOrRedrawFlag :
    forgetSoundAndRedraw base = forgetSoundAndRedraw { base with st := 5, redraw := true } ∧
      ∃ t, stepWith .fault base = .next t := ⟨rfl, _, rfl⟩

/-- Two rows of R57 match no common word; each matches some word. -/
theorem witness_DispatchAndMatchTableSelectTheSameRow :
    rowOf (.drw 0 0 0) ∈ opcodeTable ∧ rowMatches (rowOf (.drw 0 0 0)) 0xD012#16 = true := by decide

/-- A tick, and the steps of F015 and F418, each change a timer. -/
theorem witness_TimersChangeOnlyWhereListed :
    (∃ t, hostCall .fault .tickTimers { base with dt := 1, st := 1 } = .next (t, .nothing) ∧ t.dt ≠ 1 ∧ t.st ≠ 1) ∧
      goes (step (at' 0x200 0xF015 (regs [(0, 0x07)]))) (fun t => t.dt != 0) = true ∧
      goes (step (at' 0x200 0xF418 (regs [(4, 0x1E)]))) (fun t => t.st != 0) = true :=
  ⟨⟨_, rfl, by decide, by decide⟩, by decide +kernel, by decide +kernel⟩

/-- The flag cleared by the host, set by a clear of a clear Screen (DS2), and set with a changed Screen. -/
theorem witness_RedrawFlagIsSetByDrawingAndClearedByHost :
    (∃ t, hostCall .fault .clearRedrawFlag { base with redraw := true } = .next (t, .nothing) ∧ t.redraw = false) ∧
      goes (step (at' 0x200 0x00E0 base)) (fun t => t.redraw) = true ∧
      goes (step (at' 0x200 0x00E0 { base with screen := lit [(5, 7)] }))
        (fun t => t.screen.pixel 5 7 != (lit [(5, 7)]).pixel 5 7) = true :=
  ⟨⟨_, rfl, rfl⟩, by decide +kernel, by decide +kernel⟩

end Sys2Proof.Tests
end

