-- ==== Sys2Proof/Proofs/HostReads.lean ====
section
/-! PROOFS. What the host reads (spec/10_state.md R34, spec/41_display.md R77, spec/60_exceptions.md R126, R127): the byte grid of
the Screen, the awaiting-key latch, and the one call of this group that writes. -/

namespace Sys2Proof.Machine

/-- `isHalted` tests for the mode `Halted(f)` of R29. -/
theorem State.isHalted_iff (s : State) : s.isHalted = true ↔ ∃ f, s.mode = .halted f := by
  unfold State.isHalted
  cases s.mode <;> simp

/-- Outside `Halted`, the redraw flag alone is cleared (R77). -/
theorem clearRedrawFlag_of_not_halted {s : State} (h : ¬ ∃ f, s.mode = .halted f) : clearRedrawFlag s = s.setRedraw false :=
  if_neg (mt s.isHalted_iff.mp h)

/-! ### The latch (R126) -/

theorem isAwaitingKey_of_running {s : State} (h : s.mode = .running) : isAwaitingKey s = none := by
  simp [isAwaitingKey, h]

theorem isAwaitingKey_of_awaitingKey {s : State} {x : Reg} (h : s.mode = .awaitingKey x) : isAwaitingKey s = some x := by
  simp [isAwaitingKey, h]

theorem isAwaitingKey_of_halted {s : State} {f : FaultRecord} (h : s.mode = .halted f) : isAwaitingKey s = none := by
  simp [isAwaitingKey, h]

/-! ### The grid (R27, R77) -/

/-- The 32 rows of 64 bytes of the grid are laid end to end, so the library's index arithmetic for rows of one length applies. -/
theorem readScreen_eq_flatten (s : State) : readScreen s = (s.screen.map (·.map flagByte)).flatten.toList := by
  simp [readScreen, Vector.flatten, List.flatMap_def, Array.toList_flatten, Function.comp_def, Vector.toList_toArray]

@[simp] theorem length_readScreen (s : State) : (readScreen s).length = 2048 := by
  rw [readScreen_eq_flatten, Vector.length_toList]

/-- Row-major order: element `y*64 + x` lies in row `y` at column `x`. -/
theorem getElem?_readScreen (s : State) (x : Fin 64) (y : Fin 32) :
    (readScreen s)[y.val * 64 + x.val]? = some (flagByte (s.screen.pixel x y)) := by
  have hlt : y.val * 64 + x.val < 32 * 64 := by omega
  have hrow : (y.val * 64 + x.val) / 64 = y.val := by omega
  have hcol : (y.val * 64 + x.val) % 64 = x.val := by omega
  rw [readScreen_eq_flatten, Vector.getElem?_toList, Vector.getElem?_eq_getElem hlt, Vector.getElem_flatten]
  simp [hrow, hcol, Screen.pixel]

/-- Settles O39: each read is one row of `hostCall`, the grid by its row-major order, the latch by the three modes. -/
theorem hostReadsHaveNoSideEffect : Obligations.HostReadsHaveNoSideEffect := by
  intro odd s
  refine ⟨⟨readScreen s, rfl, length_readScreen s, getElem?_readScreen s⟩, rfl, ?latch, fun _ => rfl, rfl, rfl, rfl, rfl,
    fun _ => rfl, ?clear⟩
  case latch =>
    cases hm : s.mode with
    | running => simp [hostCall, isAwaitingKey_of_running hm]
    | awaitingKey x => simp [hostCall, isAwaitingKey_of_awaitingKey hm]
    | halted f => simp [hostCall, isAwaitingKey_of_halted hm]
  case clear =>
    intro h
    simp only [hostCall, clearRedrawFlag_of_not_halted h]
    rfl

end Sys2Proof.Machine
end

