-- ==== Sys2Proof/Proofs/StepCycle.lean ====
section
/-! PROOFS. The step cycle (spec/40_step_cycle.md R63 to R72): the fetch, what an instruction answers where its own check fails
and where it does not, and what each host call can do to the engine mode. -/

namespace Sys2Proof.Machine

/-! ### The fetch and the base advance (R65 to R67) -/

/-- A fetch that raises no fault reads the word at PC. -/
theorem FetchesAtPc.fetchChecked_eq {odd : Config.OddFetch} {s : State} (h : FetchesAtPc odd s) :
    fetchChecked odd s = .ok (wordAtPc s) :=
  fetchChecked_ok odd s h.1 h.2

/-- No fetch answers another word than the one at PC. -/
theorem eq_wordAtPc_of_fetchChecked {odd : Config.OddFetch} {s : State} {w : Word} (h : fetchChecked odd s = .ok w) :
    w = wordAtPc s := by
  rcases fetchChecked_cases odd s with ⟨_, he⟩ | ⟨_, _, _, he⟩ | ⟨_, _, he⟩ <;> rw [he] at h
  · cases h
  · cases h
  · exact (Except.ok.inj h).symm

/-- The step of R66, from the word at PC. -/
theorem stepWith_eq_exec {odd : Config.OddFetch} {s : State} {i : Instr} (hl : s.loaded = true) (hm : s.mode = .running)
    (hf : FetchesAtPc odd s) (hi : decodeWord (wordAtPc s) = some i) : stepWith odd s = exec i s.advance :=
  stepWith_exec odd s hl hm _ hf.fetchChecked_eq i hi

/-- The step of R67, from the word at PC. -/
theorem stepWith_eq_takeIllegal {odd : Config.OddFetch} {s : State} (hl : s.loaded = true) (hm : s.mode = .running)
    (hf : FetchesAtPc odd s) (hi : decodeWord (wordAtPc s) = none) :
    stepWith odd s = takeIllegal s.advance (wordAtPc s) :=
  stepWith_illegal odd s hl hm _ hf.fetchChecked_eq hi

/-- After the base advance, PC_insn is the address the step fetched from (R64, R66). -/
@[simp] theorem State.insnAddr_advance (s : State) : s.advance.insnAddr = s.pc := by
  simp [State.insnAddr]

/-! ### The key test (R108, R109) -/

theorem keySkip_outOfRange (s : State) {x : Reg} (wanted : Bool) (word : Word) (h : (s.reg x).toNat > 0xF) :
    keySkip s x wanted word = takeFault s .keyIndexOutOfRange word (wideReg s x) := by
  rcases keyOperand_cases (s.reg x) with ⟨hlt, _⟩ | ⟨_, hk⟩
  · omega
  · simp [keySkip, hk]

theorem keySkip_inRange (s : State) {x : Reg} (wanted : Bool) (word : Word) (h : (s.reg x).toNat ≤ 0xF) :
    ∃ c, keySkip s x wanted word = .next (s.skip c) := by
  rcases keyOperand_cases (s.reg x) with ⟨_, hk⟩ | ⟨hge, _⟩
  · exact ⟨_, by rw [keySkip, hk]⟩
  · omega

/-! ### The sprite in the statements' terms (R76) -/

/-- The sprite that `Dxyn` reads at I covers the pixels `SpriteLandsOn` names. -/
theorem spriteCovers_iff_spriteLandsOn (s : State) (x y : Reg) (n : Nibble) (px : Fin 64) (py : Fin 32) :
    SpriteCovers (s.reg x) (s.reg y) 0 (s.mem.readBytes s.i.toNat n.toNat) px py ↔ SpriteLandsOn s x y n px py := by
  simp only [SpriteCovers, RowCovers, SpriteLandsOn, spriteBit, screenColumn, screenRow, Memory.getElem_readBytes,
    Memory.length_readBytes, Fin.ext_iff, Fin.ofNat, Nat.zero_add]
  constructor
  · rintro ⟨row, hrow, col, hcol, hbit, hx, hy⟩
    exact ⟨row, col, hrow, hcol, hbit, hx, hy⟩
  · rintro ⟨row, col, hrow, hcol, hbit, hx, hy⟩
    exact ⟨row, hrow, col, hcol, hbit, hx, hy⟩

/-- A `Dxyn` that goes on writes what its rule lists. -/
theorem onlyWrites_draw (s : State) (x y : Reg) (n : Nibble) :
    OnlyWrites (mayWrite (.drw x y n) s) s
      (drawSprite s (s.reg x) (s.reg y) (s.mem.readBytes s.i.toNat n.toNat)) := by
  refine (onlyWrites_drawSprite s _ _ _ (by rw [Memory.length_readBytes]; omega)).mono ?_
  rintro p (⟨px, py, hc, rfl⟩ | h)
  · exact .inl ⟨px, py, (spriteCovers_iff_spriteLandsOn s x y n px py).1 hc, rfl⟩
  · exact .inr h

theorem exec_drw_goesOn (s : State) (x y : Reg) {n : Nibble} (h : n = 0x0#4 ∨ s.i.toNat + n.toNat ≤ 0x1000) :
    exec (.drw x y n) s = .next (drawSprite s (s.reg x) (s.reg y) (s.mem.readBytes s.i.toNat n.toNat)) := by
  change execDrw x y n s = _
  unfold execDrw
  by_cases hn : n = 0x0#4
  · rw [if_pos hn]
  · rw [if_neg hn, rangeChecked_inRange _ _ _ _ (h.resolve_left hn)]

theorem exec_drw_outOfRange (s : State) (x y : Reg) {n : Nibble} (hn : n ≠ 0x0#4) (h : s.i.toNat + n.toNat > 0x1000) :
    exec (.drw x y n) s =
      takeFault s .memoryOutOfBounds (encode (.drw x y n)) (if s.i.toNat < 0x1000 then 0x1000#16 else s.i) :=
  (if_neg hn).trans (rangeChecked_outOfRange _ _ _ _ h)

/-! ### What an instruction answers (R71, R72) -/

/-- Where the instruction's own check fails, it takes that fault and has written nothing. -/
theorem exec_takesFault {i : Instr} {s : State} {k : Fault} (h : ownFault i s = some k) :
    ∃ info, TakesFault (exec i s) s k (encode i) info := by
  cases i with
  | ret =>
    obtain ⟨hs, rfl⟩ := by simpa [ownFault] using h
    exact ⟨_, popThen_empty s (encode .ret) (fun v t => t.setPc v) hs⟩
  | call nnn =>
    obtain ⟨hs, rfl⟩ := by simpa [ownFault] using h
    exact ⟨_, if_neg (Nat.not_lt.2 hs)⟩
  | drw x y n =>
    obtain ⟨⟨hn, hi⟩, rfl⟩ := by simpa [ownFault] using h
    exact ⟨_, exec_drw_outOfRange s x y hn (by omega)⟩
  | ldB x | ldMemI x | ldIMem x =>
    obtain ⟨hi, rfl⟩ := by simpa [ownFault] using h
    exact ⟨_, rangeChecked_outOfRange s _ _ _ (by omega)⟩
  | skp x | sknp x =>
    obtain ⟨hk, rfl⟩ := by simpa [ownFault] using h
    exact ⟨_, keySkip_outOfRange s _ _ hk⟩
  | _ => cases h

/-- Where it does not fail, or the instruction has none, it goes on and writes only what its rule lists. -/
theorem exec_goesOn {i : Instr} {s : State} (h : ownFault i s = none) :
    ∃ t, exec i s = .next t ∧ OnlyWrites (mayWrite i s) s t := by
  cases i with
  | cls =>
    refine ⟨_, rfl, ((onlyWrites_setScreen s _).mono ?_).trans ((onlyWrites_setRedraw _ true).mono fun _ => .inr)⟩
    rintro p ⟨x, y, rfl, -⟩
    exact .inl ⟨x, y, rfl⟩
  | ret =>
    rcases popThen_cases s (encode .ret) (fun v t => t.setPc v) with ⟨hs, -⟩ | ⟨rest, v, -, he⟩
    · simp [ownFault, hs] at h
    · exact ⟨_, he, ((onlyWrites_setStack s rest).mono fun _ => .inr).trans ((onlyWrites_setPc _ v).mono fun _ => .inl)⟩
  | call nnn =>
    have hs : s.stack.length < 16 := by simpa [ownFault] using h
    exact ⟨_, if_pos hs, ((onlyWrites_setStack s _).mono fun _ => .inl).trans ((onlyWrites_setPc _ _).mono fun _ => .inr)⟩
  | jp | jpV0 => exact ⟨_, rfl, onlyWrites_setPc s _⟩
  | seImm | sneImm | seReg | sneReg => exact ⟨_, rfl, onlyWrites_skip s _⟩
  | ldImm | addImm | ldReg | or | and | xor | ldVxDt => exact ⟨_, rfl, onlyWrites_setReg s _ _⟩
  | addReg | sub | shr | subn | shl => exact ⟨_, rfl, onlyWrites_setFlagThen s _ _ _⟩
  | rnd x kk =>
    exact ⟨_, rfl, ((onlyWrites_setDraws s _).mono fun _ => .inr).trans ((onlyWrites_setReg _ x _).mono fun _ => .inl)⟩
  | ldI | addI | ldF => exact ⟨_, rfl, onlyWrites_setI s _⟩
  | drw x y n =>
    have hi : n ≠ 0x0#4 → s.i.toNat + n.toNat - 1 ≤ 0xFFF := by simpa [ownFault] using h
    have hok : n = 0x0#4 ∨ s.i.toNat + n.toNat ≤ 0x1000 :=
      (eq_or_ne n 0x0#4).imp_right fun hn => by have := hi hn; omega
    exact ⟨_, exec_drw_goesOn s x y hok, onlyWrites_draw s x y n⟩
  | ldB x =>
    have hi : s.i.toNat + 2 ≤ 0xFFF := by simpa [ownFault] using h
    exact ⟨_, rangeChecked_inRange s _ _ _ (by omega), onlyWrites_writeBytes s _ (decimalDigits (s.reg x))⟩
  | ldMemI x =>
    have hi : s.i.toNat + x.toNat ≤ 0xFFF := by simpa [ownFault] using h
    refine ⟨_, rangeChecked_inRange s _ _ _ (by omega), (onlyWrites_writeBytes s _ _).mono ?_⟩
    rintro p ⟨k, hk, rfl⟩
    exact ⟨k, by rw [State.length_regsUpTo] at hk; omega, rfl⟩
  | ldIMem x =>
    have hi : s.i.toNat + x.toNat ≤ 0xFFF := by simpa [ownFault] using h
    refine ⟨_, rangeChecked_inRange s _ _ _ (by omega),
      (onlyWrites_setRegs s 0 _ (by rw [Memory.length_readBytes]; omega)).mono ?_⟩
    rintro p ⟨r, -, hr, rfl⟩
    exact ⟨r, by rw [Memory.length_readBytes] at hr; omega, rfl⟩
  | skp x =>
    obtain ⟨c, he⟩ := keySkip_inRange s (x := x) true (encode (.skp x)) (by simpa [ownFault] using h)
    exact ⟨_, he, onlyWrites_skip s c⟩
  | sknp x =>
    obtain ⟨c, he⟩ := keySkip_inRange s (x := x) false (encode (.sknp x)) (by simpa [ownFault] using h)
    exact ⟨_, he, onlyWrites_skip s c⟩
  | ldVxK x => exact ⟨_, rfl, onlyWrites_setMode s _⟩
  | ldDt x => exact ⟨_, rfl, onlyWrites_setDt s _⟩
  | ldSt x => exact ⟨_, rfl, onlyWrites_setSt s _⟩

/-- Of all instructions, Fx0A alone writes the mode when it goes on. -/
theorem exists_ldVxK_of_mayWrite_mode {i : Instr} {s : State} (h : mayWrite i s .mode) : ∃ x, i = .ldVxK x := by
  cases i with
  | ldVxK x => exact ⟨x, rfl⟩
  | _ => simp [mayWrite] at h

/-- The engine mode after an instruction that goes on: Fx0A waits, every other instruction keeps the mode. -/
theorem exec_goesOn_mode {i : Instr} {s : State} (h : ownFault i s = none) :
    ∃ t, exec i s = .next t ∧ (t.mode = s.mode ∨ ∃ x, i = .ldVxK x ∧ t.mode = .awaitingKey x) := by
  obtain ⟨t, ht, hw⟩ := exec_goesOn h
  refine ⟨t, ht, ?_⟩
  by_cases hmode : mayWrite i s .mode
  · obtain ⟨x, rfl⟩ := exists_ldVxK_of_mayWrite_mode hmode
    cases ht
    exact .inr ⟨x, rfl, rfl⟩
  · exact .inl (hw .mode hmode)

/-- An instruction that may not write PC leaves it where the base advance put it, whether or not it faults. -/
theorem exec_pc_of_not_mayWrite {i : Instr} {s : State} (h : ¬ mayWrite i s .pc) : ∃ t, exec i s = .next t ∧ t.pc = s.pc := by
  cases hc : ownFault i s with
  | some k =>
    obtain ⟨info, ht⟩ := exec_takesFault hc
    exact ⟨_, ht, rfl⟩
  | none =>
    obtain ⟨t, ht, hw⟩ := exec_goesOn hc
    exact ⟨t, ht, hw .pc h⟩

/-- The checks read nothing that the base advance writes. -/
@[simp] theorem ownFault_advance (i : Instr) (s : State) : ownFault i s.advance = ownFault i s := by
  cases i <;> rfl

/-! ### What a host call answers (R63, R127) -/

theorem tickTimers_of_halted {s : State} (h : s.isHalted = true) : tickTimers s = s := if_pos h

theorem tickTimers_mode (s : State) : (tickTimers s).mode = s.mode := by
  unfold tickTimers
  split <;> rfl

theorem clearRedrawFlag_of_halted {s : State} (h : s.isHalted = true) : clearRedrawFlag s = s := if_pos h

theorem clearRedrawFlag_mode (s : State) : (clearRedrawFlag s).mode = s.mode := by
  unfold clearRedrawFlag
  split <;> rfl

/-- A `set_key` that goes on: frozen in `Halted`, else the keypad alone is written (R124). -/
theorem setKey_next {k : Nat} {pressed : Bool} {s t : State} {r : Reply} (h : setKey k pressed s = .next (t, r)) :
    (s.isHalted = true ∧ t = s) ∨ (s.isHalted = false ∧ ∃ keys, t = s.setKeys keys) := by
  unfold setKey at h
  split at h
  · cases hh : s.isHalted <;> simp only [hh] at h <;> cases h
    · exact .inr ⟨rfl, _, rfl⟩
    · exact .inl ⟨rfl, rfl⟩
  · cases h

/-- A `load` that goes on: the machine was not loaded, and the ROM was too large or is copied in (R135). -/
theorem load_next {bytes : List Byte} {s t : State} {r : Reply} (h : load bytes s = .next (t, r)) :
    s.loaded = false ∧ (t = s ∨ t = s.loadRom bytes) := by
  unfold load at h
  split at h
  · cases h
  · next hl =>
    refine ⟨by simpa using hl, ?_⟩
    split at h <;> cases h
    · exact .inl rfl
    · exact .inr rfl

/-- A `resolve_key` that goes on: the machine awaits a key, and takes the value (R125). -/
theorem resolveKey_next {v : Nat} {s t : State} {r : Reply} (h : resolveKey v s = .next (t, r)) :
    ∃ x, s.mode = .awaitingKey x ∧ v ≤ 15 ∧ t = (s.setReg x (BitVec.ofNat 8 v)).setMode .running := by
  unfold resolveKey at h
  split at h
  · next x hm =>
    split at h
    · next hv => cases h; exact ⟨x, hm, hv, rfl⟩
    · cases h
  · cases h

/-- `resolve_key` of 0 to 15 while awaiting goes on (R125). -/
theorem resolveKey_of_awaitingKey {v : Nat} {s : State} {x : Reg} (hm : s.mode = .awaitingKey x) (hv : v ≤ 15) :
    resolveKey v s = .next ((s.setReg x (BitVec.ofNat 8 v)).setMode .running, .nothing) := by
  simp [resolveKey, hm, hv]

/-- The latched register holds the key delivered. -/
theorem toNat_reg_setReg_key (s : State) (x : Reg) {v : Nat} (hv : v ≤ 15) :
    (((s.setReg x (BitVec.ofNat 8 v)).setMode .running).reg x).toNat = v := by
  rw [State.reg_setMode, State.reg_setReg, if_pos rfl, BitVec.toNat_ofNat, Nat.mod_eq_of_lt (by omega)]

/-- The host's `step` is the engine's step, with a reply. -/
theorem hostStep_next {odd : Config.OddFetch} {s t : State} {r : Reply} (h : hostStep odd s = .next (t, r)) :
    stepWith odd s = .next t := by
  unfold hostStep at h
  split at h <;> cases h
  assumption

/-- What a host call that goes on does to the engine mode: only `step` and `resolve_key` can change it, and the other calls
change nothing in a loaded halted machine. -/
theorem hostCall_next {odd : Config.OddFetch} {op : HostOp} {s t : State} {r : Reply}
    (h : hostCall odd op s = .next (t, r)) :
    (op = .step ∧ stepWith odd s = .next t) ∨
      (∃ x v, op = .resolveKey v ∧ s.mode = .awaitingKey x ∧ v ≤ 15 ∧
        t = (s.setReg x (BitVec.ofNat 8 v)).setMode .running) ∨
      (t.mode = s.mode ∧ (s.loaded = true → s.isHalted = true → t = s)) := by
  cases op with
  | step => exact .inl ⟨rfl, hostStep_next h⟩
  | resolveKey v =>
    obtain ⟨x, hm, hv, ht⟩ := resolveKey_next h
    exact .inr (.inl ⟨x, v, rfl, hm, hv, ht⟩)
  | load bytes =>
    obtain ⟨hl, rfl | rfl⟩ := load_next h <;> exact .inr (.inr ⟨rfl, by simp [hl]⟩)
  | setKey k pressed =>
    obtain ⟨-, rfl⟩ | ⟨hh, keys, rfl⟩ := setKey_next h
    · exact .inr (.inr ⟨rfl, fun _ _ => rfl⟩)
    · exact .inr (.inr ⟨rfl, by simp [hh]⟩)
  | tickTimers => cases h; exact .inr (.inr ⟨tickTimers_mode s, fun _ => tickTimers_of_halted⟩)
  | clearRedrawFlag => cases h; exact .inr (.inr ⟨clearRedrawFlag_mode s, fun _ => clearRedrawFlag_of_halted⟩)
  | _ => cases h; exact .inr (.inr ⟨rfl, fun _ _ => rfl⟩)

/-- No host call changes anything in a loaded halted machine (R69, R127). -/
theorem hostCall_of_halted {odd : Config.OddFetch} {op : HostOp} {s t : State} {r : Reply} {f : FaultRecord}
    (hl : s.loaded = true) (hm : s.mode = .halted f) (h : hostCall odd op s = .next (t, r)) : t = s := by
  obtain ⟨-, ht⟩ | ⟨x, v, -, hx, -⟩ | ⟨-, ht⟩ := hostCall_next h
  · rw [stepWith_halted odd s hl f hm] at ht
    cases ht
    rfl
  · rw [hm] at hx
    cases hx
  · exact ht hl (s.isHalted_iff.2 ⟨f, hm⟩)

/-- The engine mode after a step: kept, or the machine was running and the step executed Fx0A or raised a fault (R63). -/
theorem stepWith_mode {odd : Config.OddFetch} {s t : State} (h : stepWith odd s = .next t) :
    t.mode = s.mode ∨ (s.mode = .running ∧
      ((∃ x, decodeWord (wordAtPc s) = some (.ldVxK x) ∧ t.mode = .awaitingKey x) ∨ ∃ f, t.mode = .halted f)) := by
  rcases stepWith_cases odd s with ⟨-, he⟩ | ⟨-, -, he⟩ | ⟨-, hm, f, -, he⟩ | ⟨-, hm, w, -, -, he⟩ |
    ⟨-, hm, w, i, hf, hi, he⟩ <;> rw [he] at h
  · cases h
  · cases h; exact .inl rfl
  · cases h; exact .inr ⟨hm, .inr ⟨_, rfl⟩⟩
  · cases h; exact .inr ⟨hm, .inr ⟨_, rfl⟩⟩
  · cases hc : ownFault i s.advance with
    | some k =>
      obtain ⟨info, ht⟩ := exec_takesFault hc
      rw [ht] at h
      cases h
      exact .inr ⟨hm, .inr ⟨_, rfl⟩⟩
    | none =>
      obtain ⟨u, hu, hmode⟩ := exec_goesOn_mode hc
      rw [hu] at h
      cases h
      obtain hkeep | ⟨x, rfl, hx⟩ := hmode
      · exact .inl hkeep
      · exact .inr ⟨hm, .inl ⟨x, eq_wordAtPc_of_fetchChecked hf ▸ hi, hx⟩⟩

/-- A loaded running machine halts with the kind of the check that fails: of the fetch, of the decoder, of the instruction. -/
theorem stepWith_halts {odd : Config.OddFetch} {s : State} {k : Fault} (hl : s.loaded = true) (hm : s.mode = .running)
    (h : fetchChecked odd s = .error k ∨
      (FetchesAtPc odd s ∧ decodeWord (wordAtPc s) = none ∧ k = .unrecognizedInstruction) ∨
      (FetchesAtPc odd s ∧ ∃ i, decodeWord (wordAtPc s) = some i ∧ ownFault i s = some k)) :
    ∃ t f, stepWith odd s = .next t ∧ t.mode = .halted f ∧ f.kind = k := by
  obtain hf | ⟨hf, hi, rfl⟩ | ⟨hf, i, hi, hc⟩ := h
  · exact ⟨_, _, stepWith_fetchFault odd s hl hm k hf, rfl, rfl⟩
  · exact ⟨_, _, stepWith_eq_takeIllegal hl hm hf hi, rfl, rfl⟩
  · obtain ⟨info, ht⟩ := exec_takesFault ((ownFault_advance i s).trans hc)
    exact ⟨_, _, (stepWith_eq_exec hl hm hf hi).trans ht, rfl, rfl⟩

/-! ### The obligations -/

/-- Settles O59, by the two halves `exec_takesFault` and `exec_goesOn_mode`. -/
theorem instructionsFaultExactlyWhenTheirCheckFails : Obligations.InstructionsFaultExactlyWhenTheirCheckFails := by
  intro i s
  refine ⟨fun k => exec_takesFault, fun h => ?_⟩
  obtain ⟨t, ht, hmode⟩ := exec_goesOn_mode h
  refine ⟨t, ht, fun hrun f hf => ?_⟩
  rcases hmode with hkeep | ⟨x, -, hx⟩
  · rw [hkeep, hrun] at hf
    cases hf
  · rw [hx] at hf
    cases hf

/-- Settles O25: the step is `exec` after the base advance, and the frame of the instruction keeps PC. -/
theorem stepRunsDecodedInstructionAfterBaseAdvance : Obligations.StepRunsDecodedInstructionAfterBaseAdvance := by
  intro odd s i hl hm hf hi
  have hstep : stepWith odd s = exec i s.advance := stepWith_eq_exec hl hm hf hi
  refine ⟨hstep, by rintro rfl; exact hstep, fun hpc => ?_⟩
  rw [hstep]
  exact exec_pc_of_not_mayWrite hpc

/-- Settles O26, by the three outcomes of a fetch in the order of its checks. -/
theorem fetchChecksRangeThenAlignment : Obligations.FetchChecksRangeThenAlignment := by
  intro odd s
  refine ⟨fun h => if_pos h, fun h hodd hfault => ?_, fun h hread => fetchChecked_ok odd s h hread,
    fun hl hm f hf => stepWith_fetchFault odd s hl hm f hf⟩
  exact (if_neg (Nat.not_lt.2 h)).trans (if_pos ⟨hodd, hfault⟩)

/-- Settles O27: the fault of an illegal word, taken after the base advance. -/
theorem illegalWordHaltsAfterBaseAdvance : Obligations.IllegalWordHaltsAfterBaseAdvance := by
  intro odd s hl hm hf hi
  rw [stepWith_eq_takeIllegal hl hm hf hi, takeIllegal, takeFault, State.insnAddr_advance]
  rfl

/-- Settles O28: a resolved machine runs with the PC and the Memory it waited with. -/
theorem waitingAndHaltedStepsChangeNothing : Obligations.WaitingAndHaltedStepsChangeNothing := by
  intro odd s hl
  refine ⟨fun x hm => ⟨stepWith_awaiting odd s hl x hm, fun v hv => ?_⟩, fun f hm => ⟨stepWith_halted odd s hl f hm, ?_⟩⟩
  · exact ⟨_, resolveKey_of_awaitingKey hm hv, rfl, rfl, fun i hf hi => stepWith_eq_exec hl rfl hf hi⟩
  · intro op t r h
    rw [hostCall_of_halted hl hm h, hm]

/-- Settles O30: what a host call can do to the mode, and each row of R63's table. -/
theorem modeChangesOnlyAsListed : Obligations.ModeChangesOnlyAsListed := by
  intro odd s
  refine ⟨fun op t r h => ?_, fun hl hm hf x hi => ⟨_, stepWith_eq_exec hl hm hf hi, rfl⟩,
    fun x v hm hv => ⟨_, resolveKey_of_awaitingKey hm hv, rfl, toNat_reg_setReg_key s x hv⟩,
    fun hl hm k => stepWith_halts hl hm, fun hl x => stepWith_awaiting odd s hl x,
    fun hl f hm op t r => hostCall_of_halted hl hm⟩
  obtain ⟨hop, ht⟩ | ⟨x, v, hop, hm, hv, rfl⟩ | ⟨hkeep, -⟩ := hostCall_next h
  · exact (stepWith_mode ht).imp_right fun hrow => .inl ⟨hop, hrow⟩
  · exact .inr (.inr ⟨x, v, hop, hm, rfl, toNat_reg_setReg_key s x hv⟩)
  · exact .inl hkeep

end Sys2Proof.Machine
end

