-- ==== Sys2Proof/Proofs/Display.lean ====
section
/-! PROOFS. The display instructions (spec/41_display.md): 00E0. -/

namespace Sys2Proof.Machine

/-- `00E0` answers the state whose Screen is blank and whose redraw flag is set (R75). -/
theorem exec_cls (s : State) : exec .cls s = .next ((s.setScreen Screen.blank).setRedraw true) := rfl

/-- Settles O1: CLS has no check that can fail, so it goes on within its frame, and the state it answers has the blank Screen. -/
theorem clearScreenBlanksScreenAndSetsRedraw : Obligations.ClearScreenBlanksScreenAndSetsRedraw := by
  refine ⟨⟨by decide, rfl⟩, fun s => ?_⟩
  obtain ⟨t, ht, hframe⟩ := exec_goesOn (i := .cls) (s := s) rfl
  obtain rfl : (s.setScreen Screen.blank).setRedraw true = t := Host.Outcome.next.inj ((exec_cls s).symm.trans ht)
  exact ⟨_, ht, Screen.pixel_blank, rfl, hframe⟩

end Sys2Proof.Machine
end

