-- ==== Sys2Proof/Proofs/Encoding.lean ====
section
/-! PROOFS. The decoder reads back what the encoder writes (spec/30_encoding.md R52 to R58). -/

namespace Sys2Proof

theorem decodeWord_encode (i : Instr) : decodeWord (encode i) = some i := by
  cases i with
  | cls | ret => rfl
  | jp | call | ldI | jpV0 => rw [encode, decodeWord, fieldsOf_addrWord]; rfl
  | seReg | sneReg | ldReg | or | and | xor | addReg | sub | shr | subn | shl | drw =>
    rw [encode, decodeWord, fieldsOf_nibbleWord]; rfl
  | _ => rw [encode, decodeWord, fieldsOf_immWord]; rfl

end Sys2Proof

namespace Sys2Proof.Machine

/-- A statement's word `c ++ x ++ kk` is `encode i` unfolded. -/
theorem encodesAs_encode (i : Instr) : EncodesAs (encode i) i := ⟨decodeWord_encode i, rfl⟩

end Sys2Proof.Machine
end

