-- ==== Sys2Proof/Proofs/ControlFlow.lean ====
section
/-! PROOFS. Jumps, call and return, and the skips on register values (spec/42_control_flow.md R79 to R86). -/

namespace Sys2Proof.Machine

/-! ### Jump targets (R54, R80, R86) -/

@[simp] theorem toNat_addrOperand (nnn : Addr) : (addrOperand nnn).toNat = nnn.toNat :=
  BitVec.toNat_setWidth_of_le (by decide)

@[simp] theorem toNat_wideReg (s : State) (r : Reg) : (wideReg s r).toNat = (s.reg r).toNat :=
  BitVec.toNat_setWidth_of_le (by decide)

/-- The target of `Bnnn` is the sum of the two numbers: a byte and a 12-bit address are below 2^16 together. -/
theorem toNat_wideReg_add_addrOperand (s : State) (r : Reg) (nnn : Addr) :
    (wideReg s r + addrOperand nnn).toNat = (s.reg r).toNat + nnn.toNat := by
  have hsum : (wideReg s r).toNat + (addrOperand nnn).toNat < 2 ^ 16 := by
    rw [toNat_wideReg, toNat_addrOperand]; omega
  rw [BitVec.toNat_add_of_lt hsum, toNat_wideReg, toNat_addrOperand]

/-! ### Call and return (R79, R81) -/

theorem exec_ret_top {s : State} {rest : List Word} {v : Word} (h : s.stack = rest ++ [v]) :
    exec .ret s = .next { s with pc := v, stack := rest } :=
  popThen_top s (encode .ret) v rest (fun v t => t.setPc v) h

theorem exec_ret_empty {s : State} (h : s.stack = []) :
    TakesFault (exec .ret s) s .stackUnderflow (encode .ret) (s.pc - 2) :=
  popThen_empty s (encode .ret) (fun v t => t.setPc v) h

theorem exec_call_room {s : State} (nnn : Addr) (h : s.stack.length < 16) :
    exec (.call nnn) s = .next { s with stack := s.stack ++ [s.pc], pc := addrOperand nnn } :=
  if_pos h

theorem exec_call_full {s : State} (nnn : Addr) (h : 16 ≤ s.stack.length) :
    TakesFault (exec (.call nnn) s) s .stackOverflow (encode (.call nnn)) (s.pc - 2) :=
  if_neg (Nat.not_lt.2 h)

/-! ### The skips (R82 to R85) -/

/-- A skip on a test that decides `p` adds 2 to PC where `p` holds, and writes nothing else. -/
theorem State.skip_of_iff (s : State) {c : Bool} {p : Prop} [Decidable p] (h : c = true ↔ p) :
    s.skip c = { s with pc := if p then s.pc + 2 else s.pc } := by
  rw [State.skip_eq, State.setPc]
  simp only [h]

/-! ### The obligations -/

/-- Settles O5, by the two outcomes of a pop. -/
theorem returnPopsPcOrUnderflows : Obligations.ReturnPopsPcOrUnderflows :=
  ⟨encodesAs_encode .ret, fun _ => ⟨fun _ _ => exec_ret_top, exec_ret_empty⟩⟩

/-- Settles O6: each jump writes its target to PC alone. -/
theorem jumpsSetPcUnmasked : Obligations.JumpsSetPcUnmasked := by
  intro nnn
  refine ⟨encodesAs_encode (.jp nnn), encodesAs_encode (.jpV0 nnn), fun s => ⟨?_, ?_⟩⟩
  · exact ⟨_, rfl, toNat_addrOperand nnn, onlyWrites_setPc s _⟩
  · exact ⟨_, rfl, toNat_wideReg_add_addrOperand s 0x0 nnn, onlyWrites_setPc s _⟩

/-- Settles O7, by the two outcomes of a push. -/
theorem callPushesAdvancedPcOrOverflows : Obligations.CallPushesAdvancedPcOrOverflows :=
  fun nnn => ⟨encodesAs_encode (.call nnn), fun _ => ⟨exec_call_room nnn, fun h => exec_call_full nnn h.ge⟩⟩

/-- Settles O9: the Boolean test of each skip decides the condition of its rule. -/
theorem registerSkipsAddTwoWhenConditionHolds : Obligations.RegisterSkipsAddTwoWhenConditionHolds := by
  intro x y kk
  refine ⟨⟨encodesAs_encode (.seImm x kk), encodesAs_encode (.sneImm x kk), encodesAs_encode (.seReg x y),
    encodesAs_encode (.sneReg x y)⟩, fun s => ⟨?_, ?_, ?_, ?_⟩⟩
  · exact congrArg Host.Outcome.next (s.skip_of_iff beq_iff_eq)
  · exact congrArg Host.Outcome.next (s.skip_of_iff bne_iff_ne)
  · exact congrArg Host.Outcome.next (s.skip_of_iff beq_iff_eq)
  · exact congrArg Host.Outcome.next (s.skip_of_iff bne_iff_ne)

end Sys2Proof.Machine
end

