-- ==== Sys2Proof/Proofs/Alu.lean ====
section
/-! PROOFS. The register and arithmetic instructions (spec/43_alu.md R87 to R99). -/

namespace Sys2Proof.Machine

/-! ### What the two writes of this family leave in the destination and in VF -/

theorem State.reg_setReg_self (s : State) (r : Reg) (b : Byte) : (s.setReg r b).reg r = b := by
  rw [State.reg_setReg, if_pos rfl]

/-- The result is written second, so the destination holds it even where it is VF (R88). -/
theorem State.reg_setFlagThen_dest (s : State) (flag result : Byte) (d : Reg) : (s.setFlagThen flag d result).reg d = result := by
  rw [State.reg_setFlagThen, if_pos rfl]

theorem State.reg_setFlagThen_vf (s : State) (flag result : Byte) {d : Reg} (h : d ≠ 0xF) :
    (s.setFlagThen flag d result).reg 0xF = flag :=
  (s.reg_setFlagThen flag result d 0xF).trans ((if_neg h.symm).trans (if_pos rfl))

/-! ### Differences, shifts and shifted-out bits as numbers (R87) -/

theorem toNat_sub_eq_emod (a b : Byte) : ((a - b).toNat : Int) = ((a.toNat : Int) - (b.toNat : Int)) % 256 := by
  rw [BitVec.toNat_sub]
  omega

theorem toNat_ushiftRight_one (a : Byte) : (a >>> 1).toNat = a.toNat / 2 := by
  rw [BitVec.toNat_ushiftRight, Nat.shiftRight_one]

theorem toNat_shiftLeft_one (a : Byte) : (a <<< 1).toNat = a.toNat * 2 % 256 := by
  rw [BitVec.toNat_shiftLeft, Nat.shiftLeft_eq, pow_one]

theorem toNat_flagByte (c : Bool) : (flagByte c).toNat = c.toNat := by
  cases c <;> rfl

theorem toNat_shiftRightFlag (a : Byte) : (shiftRightFlag a).toNat = a.toNat % 2 := by
  rw [shiftRightFlag, toNat_flagByte, BitVec.getLsbD, Nat.toNat_testBit, pow_zero, Nat.div_one]

theorem toNat_shiftLeftFlag (a : Byte) : (shiftLeftFlag a).toNat = a.toNat / 128 := by
  rw [shiftLeftFlag, toNat_flagByte, BitVec.getLsbD, Nat.toNat_testBit]
  have hbyte : a.toNat < 2 ^ 8 := a.isLt
  omega

/-! ### The instructions -/

/-- An instruction whose meaning is one register write leaves the value there and changes nothing else. -/
theorem exec_writes_of_setReg {i : Instr} {s : State} {r : Reg} {b : Byte} (h : exec i s = .next (s.setReg r b)) :
    ∃ t, exec i s = .next t ∧ t.reg r = b ∧ OnlyWrites (fun p => p = .reg r) s t :=
  ⟨_, h, s.reg_setReg_self r b, onlyWrites_setReg s r b⟩

theorem exec_sub_writes (x y : Reg) (s : State) :
    ∃ t, exec (.sub x y) s = .next t ∧
      ((t.reg x).toNat : Int) = (((s.reg x).toNat : Int) - ((s.reg y).toNat : Int)) % 256 ∧
      (x ≠ 0xF → t.reg 0xF = if (s.reg x).toNat > (s.reg y).toNat then 0x01#8 else 0x00#8) ∧
      OnlyWrites (fun p => p = .reg 0xF ∨ p = .reg x) s t := by
  refine ⟨_, rfl, ?_, fun hx => ?_, onlyWrites_setFlagThen s _ _ x⟩
  · rw [State.reg_setFlagThen_dest, toNat_sub_eq_emod]
  · rw [State.reg_setFlagThen_vf s _ _ hx, notBorrowFlag_eq]

/-- SUBN is SUB with its operands exchanged, the destination with them: it writes Vy (R98). -/
theorem exec_subn_eq_exec_sub (x y : Reg) (s : State) : exec (.subn x y) s = exec (.sub y x) s := rfl

/-! ### The obligations -/

/-- Settles O10: each form is one register write. -/
theorem immediateLoadAndAddWriteOneRegister : Obligations.ImmediateLoadAndAddWriteOneRegister := by
  intro x kk
  refine ⟨encodesAs_encode (.ldImm x kk), encodesAs_encode (.addImm x kk), fun s => ⟨exec_writes_of_setReg rfl, ?_⟩⟩
  obtain ⟨t, hexec, hsum, hframe⟩ := exec_writes_of_setReg (i := .addImm x kk) (s := s) rfl
  exact ⟨t, hexec, by rw [hsum, BitVec.toNat_add], hframe⟩

/-- Settles O11: each form is one register write. -/
theorem moveAndLogicWriteOnlyDestination : Obligations.MoveAndLogicWriteOnlyDestination := by
  intro x y
  exact ⟨⟨encodesAs_encode (.ldReg x y), encodesAs_encode (.or x y), encodesAs_encode (.and x y),
    encodesAs_encode (.xor x y)⟩, fun _ => ⟨exec_writes_of_setReg rfl, exec_writes_of_setReg rfl,
    exec_writes_of_setReg rfl, exec_writes_of_setReg rfl⟩⟩

/-- Settles O12: the carry is written before the sum, so VF keeps it unless VF is the destination. -/
theorem addWritesSumAndCarry : Obligations.AddWritesSumAndCarry := by
  intro x y
  refine ⟨encodesAs_encode (.addReg x y), fun s => ⟨_, rfl, ?_, fun hx => ?_, onlyWrites_setFlagThen s _ _ x⟩⟩
  · rw [State.reg_setFlagThen_dest, BitVec.toNat_add]
  · rw [State.reg_setFlagThen_vf s _ _ hx, carryFlag_eq]

/-- Settles O13: SUBN is SUB with its operands exchanged. -/
theorem subtractionsWriteDifferenceAndStrictFlag : Obligations.SubtractionsWriteDifferenceAndStrictFlag := by
  intro x y
  refine ⟨⟨encodesAs_encode (.sub x y), encodesAs_encode (.subn x y)⟩, fun s => ⟨exec_sub_writes x y s, ?_⟩⟩
  rw [exec_subn_eq_exec_sub]
  exact exec_sub_writes y x s

/-- Settles O14: half of Vx with its bit 0, twice Vx with its bit 7. -/
theorem shiftsWriteResultAndShiftedOutBit : Obligations.ShiftsWriteResultAndShiftedOutBit := by
  intro x y
  refine ⟨⟨encodesAs_encode (.shr x y), encodesAs_encode (.shl x y)⟩, fun s => ⟨?_, ?_⟩⟩
  · refine ⟨_, rfl, ?_, fun hx => ?_, onlyWrites_setFlagThen s _ _ x⟩
    · rw [State.reg_setFlagThen_dest, toNat_ushiftRight_one]
    · rw [State.reg_setFlagThen_vf s _ _ hx, toNat_shiftRightFlag]
  · refine ⟨_, rfl, ?_, fun hx => ?_, onlyWrites_setFlagThen s _ _ x⟩
    · rw [State.reg_setFlagThen_dest, toNat_shiftLeft_one]
    · rw [State.reg_setFlagThen_vf s _ _ hx, toNat_shiftLeftFlag]

end Sys2Proof.Machine
end

