-- ==== Sys2Proof/Proofs/IndexMemory.lean ====
section
/-! PROOFS. The index register, and the loads and stores through it (spec/44_index_memory.md R101 to R107). -/

namespace Sys2Proof.Machine

/-! ### The new value of I (R103, R104) -/

theorem toNat_add_wideReg (s : State) (x : Reg) : (s.i + wideReg s x).toNat = (s.i.toNat + (s.reg x).toNat) % 65536 := by
  rw [BitVec.toNat_add, toNat_wideReg]

/-- Five times a byte stays below 2^16, so the product of `Fx29` does not wrap. -/
theorem toNat_five_mul_wideReg (s : State) (x : Reg) : (5#16 * wideReg s x).toNat = 5 * (s.reg x).toNat := by
  have hbyte : (s.reg x).toNat < 256 := (s.reg x).isLt
  rw [BitVec.toNat_mul, toNat_wideReg]
  exact Nat.mod_eq_of_lt (by omega : 5 * (s.reg x).toNat < 2 ^ 16)

/-! ### The range check and the frame (R43, R71) -/

/-- A range that leaves Memory: the fault names the first missing address, and nothing has been written. -/
theorem rangeChecked_takesFault (s : State) {count : Nat} (word : Word) (ok : State) (h : s.i.toNat + count > 0x1000) :
    TakesFault (rangeChecked s count word ok) s .memoryOutOfBounds word (firstMissing s.i) := by
  have hcheck : checkRange s.i count = some (firstMissing s.i) := if_pos (by omega)
  rw [rangeChecked, hcheck]
  rfl

/-- The frame of an instruction whose own check passes, for the state it is known to answer. -/
theorem onlyWrites_of_exec {i : Instr} {s t : State} (ht : exec i s = .next t) (hown : ownFault i s = none) :
    OnlyWrites (mayWrite i s) s t := by
  obtain ⟨u, hu, hframe⟩ := exec_goesOn hown
  obtain rfl : t = u := Host.Outcome.next.inj (ht.symm.trans hu)
  exact hframe

/-! ### What each access leaves where (R38, R105 to R107) -/

/-- After a run of writes, the byte `k` places above the base is the `k`-th of the run. -/
theorem Memory.read_writeBytes_add (m : Memory) (base : Nat) {bytes : List Byte} {k : Nat} (h : k < bytes.length) :
    (m.writeBytes base bytes).read (base + k) = bytes[k] := by
  rw [Memory.read_writeBytes, dif_pos ⟨by omega, by omega⟩]
  simp only [Nat.add_sub_cancel_left]

/-- The digits of R105 as numbers: each is below 10, so its byte keeps it. -/
theorem map_toNat_decimalDigits (b : Byte) :
    (decimalDigits b).map BitVec.toNat = [b.toNat / 100, b.toNat / 10 % 10, b.toNat % 10] := by
  have hbyte : b.toNat < 256 := b.isLt
  simp (disch := omega) only [decimalDigits, List.map, BitVec.toNat_ofNat, Nat.mod_eq_of_lt]

theorem Memory.toNat_read_writeBytes_decimalDigits (m : Memory) (base : Nat) (b : Byte) {k : Nat} (h : k < 3) :
    ((m.writeBytes base (decimalDigits b)).read (base + k)).toNat =
      [b.toNat / 100, b.toNat / 10 % 10, b.toNat % 10][k] := by
  have hlen : k < (decimalDigits b).length := h
  rw [Memory.read_writeBytes_add m base hlen, ← List.getElem_map BitVec.toNat (h := by simpa using hlen)]
  simp only [map_toNat_decimalDigits]

theorem Memory.read_writeBytes_regsUpTo (s : State) {x r : Reg} (h : r.toNat ≤ x.toNat) :
    (s.mem.writeBytes s.i.toNat (s.regsUpTo x)).read (s.i.toNat + r.toNat) = s.reg r := by
  rw [Memory.read_writeBytes_add _ _ (by rw [State.length_regsUpTo]; omega), State.getElem_regsUpTo, BitVec.ofNat_toNat,
    BitVec.setWidth_eq]

theorem State.reg_setRegs_readBytes (s : State) {x r : Reg} (h : r.toNat ≤ x.toNat) :
    (s.setRegs 0 (s.mem.readBytes s.i.toNat (x.toNat + 1))).reg r = s.mem.read (s.i.toNat + r.toNat) := by
  have hfits : 0 + (s.mem.readBytes s.i.toNat (x.toNat + 1)).length ≤ 16 := by rw [Memory.length_readBytes]; omega
  have hin : 0 ≤ r.toNat ∧ r.toNat < 0 + (s.mem.readBytes s.i.toNat (x.toNat + 1)).length := by
    rw [Memory.length_readBytes]; omega
  rw [State.reg_setRegs _ _ _ hfits, dif_pos hin, Memory.getElem_readBytes, Nat.sub_zero]

/-! ### The three accesses in range (R105 to R107) -/

theorem exec_ldB_inRange {s : State} (x : Reg) (h : s.i.toNat + 2 ≤ 0xFFF) :
    exec (.ldB x) s = .next (s.setMem (s.mem.writeBytes s.i.toNat (decimalDigits (s.reg x)))) :=
  rangeChecked_inRange s 3 _ _ (by omega)

theorem exec_ldMemI_inRange {s : State} {x : Reg} (h : s.i.toNat + x.toNat ≤ 0xFFF) :
    exec (.ldMemI x) s = .next (s.setMem (s.mem.writeBytes s.i.toNat (s.regsUpTo x))) :=
  rangeChecked_inRange s (x.toNat + 1) _ _ (by omega)

theorem exec_ldIMem_inRange {s : State} {x : Reg} (h : s.i.toNat + x.toNat ≤ 0xFFF) :
    exec (.ldIMem x) s = .next (s.setRegs 0 (s.mem.readBytes s.i.toNat (x.toNat + 1))) :=
  rangeChecked_inRange s (x.toNat + 1) _ _ (by omega)

/-! ### The obligations -/

/-- Settles O17: each stored byte is a digit, and a digit fits in a byte. -/
theorem decimalStoreWritesThreeDigits : Obligations.DecimalStoreWritesThreeDigits := by
  refine fun x => ⟨encodesAs_encode (.ldB x), fun s => ⟨fun h => ?inRange, fun h => ?outOfRange⟩⟩
  case inRange =>
    have hdigit {k : Nat} (hk : k < 3) := s.mem.toNat_read_writeBytes_decimalDigits s.i.toNat (s.reg x) hk
    have hexec := exec_ldB_inRange x h
    refine ⟨_, hexec, hdigit (k := 0) (by decide), hdigit (k := 1) (by decide), hdigit (k := 2) (by decide),
      (onlyWrites_of_exec hexec (if_neg (Nat.not_lt.2 h))).mono ?_⟩
    rintro p ⟨k, hk, rfl⟩
    interval_cases k
    · exact .inl rfl
    · exact .inr (.inl rfl)
    · exact .inr (.inr rfl)
  case outOfRange => exact rangeChecked_takesFault s _ _ (by omega)

/-- Settles O18: the byte at I + r is the r-th of the stored registers. -/
theorem registerStoreWritesRangeAndKeepsI : Obligations.RegisterStoreWritesRangeAndKeepsI := by
  refine fun x => ⟨encodesAs_encode (.ldMemI x), fun s => ⟨fun h => ?inRange, fun h => ?outOfRange⟩⟩
  case inRange =>
    have hexec := exec_ldMemI_inRange h
    refine ⟨_, hexec, fun r hr => Memory.read_writeBytes_regsUpTo s hr,
      (onlyWrites_of_exec hexec (if_neg (Nat.not_lt.2 h))).mono ?_⟩
    rintro p ⟨k, hk, rfl⟩
    exact ⟨s.i.toNat + k, by omega, by omega, rfl⟩
  case outOfRange => exact rangeChecked_takesFault s _ _ (by omega)

/-- Settles O19: register r is written from the r-th byte of the range. -/
theorem registerLoadReadsRangeAndKeepsI : Obligations.RegisterLoadReadsRangeAndKeepsI := by
  refine fun x => ⟨encodesAs_encode (.ldIMem x), fun s => ⟨fun h => ?inRange, fun h => ?outOfRange⟩⟩
  case inRange =>
    have hexec := exec_ldIMem_inRange h
    exact ⟨_, hexec, fun r hr => s.reg_setRegs_readBytes hr, onlyWrites_of_exec hexec (if_neg (Nat.not_lt.2 h))⟩
  case outOfRange => exact rangeChecked_takesFault s _ _ (by omega)

/-- Settles O16: each form is one write of I. -/
theorem indexRegisterInstructionsWriteOnlyI : Obligations.IndexRegisterInstructionsWriteOnlyI := by
  intro x nnn
  refine ⟨⟨encodesAs_encode (.ldI nnn), encodesAs_encode (.addI x), encodesAs_encode (.ldF x)⟩, fun s => ⟨?_, ?_, ?_⟩⟩
  · exact ⟨_, rfl, toNat_addrOperand nnn, onlyWrites_setI s _⟩
  · exact ⟨_, rfl, toNat_add_wideReg s x, onlyWrites_setI s _⟩
  · exact ⟨_, rfl, toNat_five_mul_wideReg s x, onlyWrites_setI s _⟩

end Sys2Proof.Machine
end

