-- ==== Sys2Proof/Proofs/InputTimers.lean ====
section
/-! PROOFS. The keypad and timer instructions (spec/45_input_timers.md R108 to R113), and the wait of Fx0A as the host sees it. -/

namespace Sys2Proof.Machine

/-! ### The key test (R108, R109) -/

theorem keyOperand_of_toNat_eq {b : Byte} {k : Fin 16} (h : b.toNat = k.val) : keyOperand b = some k := by
  obtain ⟨hlt, hkey⟩ | ⟨hge, -⟩ := keyOperand_cases b
  · exact hkey.trans (congrArg some (Fin.ext h))
  · omega

/-- Where Vx names the key `k`, the test compares the state of that key and skips on equality. -/
theorem keySkip_of_key {s : State} {x : Reg} {k : Fin 16} (wanted : Bool) (word : Word) (h : (s.reg x).toNat = k.val) :
    keySkip s x wanted word = .next { s with pc := if s.keys[k] = wanted then s.pc + 2 else s.pc } := by
  rw [keySkip, keyOperand_of_toNat_eq h]
  exact congrArg Host.Outcome.next (s.skip_of_iff beq_iff_eq)

/-- Where Vx names no key, the fault records Vx itself (D13). -/
theorem keySkip_takesFault {s : State} {x : Reg} (wanted : Bool) (word : Word) (h : (s.reg x).toNat > 0xF) :
    TakesFault (keySkip s x wanted word) s .keyIndexOutOfRange word (BitVec.ofNat 16 (s.reg x).toNat) := by
  rw [keySkip_outOfRange s wanted word h, BitVec.ofNat_toNat]
  rfl

/-! ### The tone (R113) -/

theorem toneOn_iff (s : State) : toneOn s = true ↔ s.st ≠ 0x00#8 := bne_iff_ne

/-! ### The host's calls during a wait (R111) -/

theorem State.isHalted_of_awaitingKey {s : State} {x : Reg} (h : s.mode = .awaitingKey x) : s.isHalted = false := by
  simp [State.isHalted, h]

/-- Outside `Halted`, `set_key` writes the one key it names (R124). -/
theorem setKey_of_not_halted {s : State} (h : s.isHalted = false) (k : Fin 16) (pressed : Bool) :
    setKey k.val pressed s = .next (s.setKeys (s.keys.set k.val pressed), .nothing) := by
  rw [setKey, dif_pos k.isLt, h]
  rfl

/-- Outside `Halted`, a tick counts both timers down (R121). -/
theorem tickTimers_of_not_halted {s : State} (h : s.isHalted = false) :
    tickTimers s = { s with dt := tickDown s.dt, st := tickDown s.st } := by
  rw [tickTimers, h]
  rfl

/-- The delivery of a key writes the latched register and the mode (R125). -/
theorem onlyWrites_setReg_setMode (s : State) (x : Reg) (b : Byte) (m : Mode) :
    OnlyWrites (fun p => p = .reg x ∨ p = .mode) s ((s.setReg x b).setMode m) :=
  ((onlyWrites_setReg s x b).mono fun _ => .inl).trans ((onlyWrites_setMode _ m).mono fun _ => .inr)

/-! ### The obligations -/

/-- Settles O22: the two instructions are one key test and differ in the state of the key they want. -/
theorem keySkipsTestKeyOrFault : Obligations.KeySkipsTestKeyOrFault := by
  intro x
  refine ⟨encodesAs_encode (.skp x), encodesAs_encode (.sknp x), fun s => ⟨fun k hkey => ?_, fun hnone => ?_⟩⟩
  · exact ⟨keySkip_of_key true _ hkey, keySkip_of_key false _ hkey⟩
  · exact ⟨keySkip_takesFault true _ hnone, keySkip_takesFault false _ hnone⟩

/-- Settles O23: each move is one write, and the tone follows the ST that Fx18 loads. -/
theorem timerMovesCopyOneByte : Obligations.TimerMovesCopyOneByte := by
  intro x
  refine ⟨⟨encodesAs_encode (.ldVxDt x), encodesAs_encode (.ldDt x), encodesAs_encode (.ldSt x)⟩, fun s => ?_⟩
  exact ⟨exec_writes_of_setReg rfl, rfl, rfl, toneOn_iff _⟩

/-- Settles O24: a machine that awaits a key is not halted, so keys and timers go on; `resolve_key` takes the latch back. -/
theorem keyWaitSuspendsUntilResolved : Obligations.KeyWaitSuspendsUntilResolved := by
  refine fun x => ⟨encodesAs_encode (.ldVxK x), fun s => ⟨rfl, fun odd u hwait => ?_⟩⟩
  have hnot : u.isHalted = false := State.isHalted_of_awaitingKey hwait
  refine ⟨setKey_of_not_halted hnot, ?latch, ?tick, fun hl => stepWith_awaiting odd u hl x hwait, fun v hv => ?resolve⟩
  case latch => rw [hostCall, isAwaitingKey_of_awaitingKey hwait]
  case tick => rw [hostCall, tickTimers_of_not_halted hnot]
  case resolve =>
    exact ⟨_, resolveKey_of_awaitingKey hwait hv, toNat_reg_setReg_key u x hv, rfl, onlyWrites_setReg_setMode u x _ _⟩

end Sys2Proof.Machine
end

