-- ==== Sys2Proof/Proofs/Decoding.lean ====
section
/-! PROOFS. The encoder writes back what the decoder reads (spec/30_encoding.md R52 to R58), so the word in the record of an
instruction's fault is the word that was fetched (log entry 6). -/

namespace Sys2Proof

/-! ### A word is made of its fields (R52, R53) -/

theorem nibbleWord_fieldsOf (w : Word) :
    nibbleWord (fieldsOf w).cls (fieldsOf w).x (fieldsOf w).y (fieldsOf w).n = w := by
  unfold nibbleWord fieldsOf
  ext k hk
  grind

theorem immWord_fieldsOf (w : Word) : immWord (fieldsOf w).cls (fieldsOf w).x (fieldsOf w).kk = w := by
  unfold immWord fieldsOf
  ext k hk
  grind

theorem addrWord_fieldsOf (w : Word) : addrWord (fieldsOf w).cls (fieldsOf w).nnn = w := by
  unfold addrWord fieldsOf
  ext k hk
  grind

/-! ### The second level of the dispatch (R58) -/

theorem encode_of_decodeClass0 {f : Fields} {i : Instr} (h : decodeClass0 f = some i) : encode i = addrWord 0x0 f.nnn := by
  unfold decodeClass0 at h
  split at h
  · next hnnn => cases h; rw [hnnn]; rfl
  · split at h
    · next hnnn => cases h; rw [hnnn]; rfl
    · cases h

theorem encode_of_decodeClass8 {f : Fields} {i : Instr} (h : decodeClass8 f = some i) :
    encode i = nibbleWord 0x8 f.x f.y f.n := by
  have hn : f.n = BitVec.ofNat 4 f.n.toNat := by simp
  unfold decodeClass8 at h
  split at h
  case h_10 => cases h
  all_goals next hk => cases h; rw [hn, hk]; rfl

theorem encode_of_decodeClassE {f : Fields} {i : Instr} (h : decodeClassE f = some i) : encode i = immWord 0xE f.x f.kk := by
  unfold decodeClassE at h
  split at h
  · next hkk => cases h; rw [hkk]; rfl
  · split at h
    · next hkk => cases h; rw [hkk]; rfl
    · cases h

theorem encode_of_decodeClassF {f : Fields} {i : Instr} (h : decodeClassF f = some i) : encode i = immWord 0xF f.x f.kk := by
  have hkk : f.kk = BitVec.ofNat 8 f.kk.toNat := by simp
  unfold decodeClassF at h
  split at h
  case h_10 => cases h
  all_goals next hk => cases h; rw [hkk, hk]; rfl

/-! ### The first level -/

/-- By the class nibble: each class fixes the shape of its words, and the word has that shape over its own fields. -/
theorem encode_of_decodeWord {w : Word} {i : Instr} (h : decodeWord w = some i) : encode i = w := by
  have hcls : (fieldsOf w).cls = BitVec.ofNat 4 (fieldsOf w).cls.toNat := by simp
  have hnib := nibbleWord_fieldsOf w
  have himm := immWord_fieldsOf w
  have haddr := addrWord_fieldsOf w
  rw [hcls] at hnib himm haddr
  unfold decodeWord decodeFields at h
  -- the case `h_k` is the class `k - 1`
  split at h
  case h_1 hc => rw [hc] at haddr; exact (encode_of_decodeClass0 h).trans haddr
  case h_9 hc => rw [hc] at hnib; exact (encode_of_decodeClass8 h).trans hnib
  case h_15 hc => rw [hc] at himm; exact (encode_of_decodeClassE h).trans himm
  case h_16 hc => rw [hc] at himm; exact (encode_of_decodeClassF h).trans himm
  case h_2 hc | h_3 hc | h_11 hc | h_12 hc => cases h; rw [hc] at haddr; exact haddr
  case h_4 hc | h_5 hc | h_7 hc | h_8 hc | h_13 hc => cases h; rw [hc] at himm; exact himm
  case h_14 hc => cases h; rw [hc] at hnib; exact hnib
  case h_6 hc | h_10 hc =>
    split at h
    · next hn => cases h; rw [hc, hn] at hnib; exact hnib
    · cases h
  case h_17 => cases h

end Sys2Proof
end

