-- ==== Sys2Proof/Proofs/Exceptions.lean ====
section
/-! PROOFS. Faults and the host interface (spec/60_exceptions.md): what a step that faults has done and why (R116, R117), what
`tick_timers`, `set_key` and `resolve_key` write (R121, R124, R125), and the refused calls (R129). -/

namespace Sys2Proof.Machine

/-! ### The checks of a fetch, in order (R65, R117) -/

theorem fetchChecked_error {odd : Config.OddFetch} {s : State} {k : Fault} (h : fetchChecked odd s = .error k) :
    (s.pc.toNat > 0xFFE ∧ k = .fetchOutOfBounds) ∨
      (¬ s.pc.toNat > 0xFFE ∧ (s.pc.getLsbD 0 = true ∧ odd = .fault) ∧ k = .misalignedFetch) := by
  obtain ⟨hpc, he⟩ | ⟨hpc, hodd, hfault, he⟩ | ⟨-, -, he⟩ := fetchChecked_cases odd s <;> rw [he] at h <;> cases h
  · exact .inl ⟨hpc, rfl⟩
  · exact .inr ⟨Nat.not_lt.2 hpc, ⟨hodd, hfault⟩, rfl⟩

theorem checks_pass_of_fetchChecked_ok {odd : Config.OddFetch} {s : State} {w : Word} (h : fetchChecked odd s = .ok w) :
    ¬ s.pc.toNat > 0xFFE ∧ ¬ (s.pc.getLsbD 0 = true ∧ odd = .fault) := by
  obtain ⟨-, he⟩ | ⟨-, -, -, he⟩ | ⟨hpc, halign, -⟩ := fetchChecked_cases odd s
  · rw [he] at h; cases h
  · rw [he] at h; cases h
  · exact ⟨Nat.not_lt.2 hpc, halign⟩

/-! ### The two fetch faults among the seven (R114) -/

theorem isFetchFault_of_fetchChecked {odd : Config.OddFetch} {s : State} {k : Fault} (h : fetchChecked odd s = .error k) :
    isFetchFault k = true := by
  obtain ⟨-, rfl⟩ | ⟨-, -, rfl⟩ := fetchChecked_error h <;> rfl

theorem isFetchFault_of_ownFault {i : Instr} {s : State} {k : Fault} (h : ownFault i s = some k) : isFetchFault k = false := by
  cases i with
  | ret | call | drw | ldB | ldMemI | ldIMem | skp | sknp =>
    obtain ⟨-, rfl⟩ := by simpa [ownFault] using h
    rfl
  | _ => cases h

/-! ### The fault a step takes (R116) -/

/-- An instruction that halts a running machine has taken the fault of its own check. -/
theorem ownFault_of_exec_halts {i : Instr} {s t : State} {f : FaultRecord} (hm : s.mode = .running)
    (h : exec i s = .next t) (hf : t.mode = .halted f) :
    ownFault i s = some f.kind ∧ t = s.halt f ∧ f.pcInsn = s.insnAddr ∧ f.word = some (encode i) := by
  cases hc : ownFault i s with
  | some k =>
    obtain ⟨info, ht⟩ := exec_takesFault hc
    rw [ht] at h
    cases h
    cases hf
    exact ⟨rfl, rfl, rfl, rfl⟩
  | none =>
    obtain ⟨u, hu, hmode⟩ := exec_goesOn_mode hc
    rw [hu] at h
    cases h
    obtain hkeep | ⟨x, -, hx⟩ := hmode
    · simp [hkeep, hm] at hf
    · simp [hx] at hf

/-- Everything a step that halts a running machine can have done: taken the fetch's fault before the base advance, or that of
the decoder or of the instruction's own check after it. -/
theorem stepWith_halts_cases {odd : Config.OddFetch} {s t : State} {f : FaultRecord} (hm : s.mode = .running)
    (h : stepWith odd s = .next t) (hf : t.mode = .halted f) :
    (fetchChecked odd s = .error f.kind ∧ t = s.halt f ∧ f.pcInsn = s.pc ∧ f.word = none) ∨
      (fetchChecked odd s = .ok (wordAtPc s) ∧
        ((decodeWord (wordAtPc s) = none ∧ f.kind = .unrecognizedInstruction) ∨
          ∃ i, decodeWord (wordAtPc s) = some i ∧ ownFault i s = some f.kind) ∧
        t = s.advance.halt f ∧ f.pcInsn = s.pc ∧ f.word = some (wordAtPc s)) := by
  obtain ⟨-, he⟩ | ⟨-, hnot, -⟩ | ⟨-, -, k, hfetch, he⟩ | ⟨-, -, w, hfetch, hw, he⟩ | ⟨-, -, w, i, hfetch, hw, he⟩ :=
    stepWith_cases odd s
  · rw [he] at h
    cases h
  · exact absurd hm hnot
  · rw [he, takeFetchFault] at h
    cases h
    cases hf
    exact .inl ⟨hfetch, rfl, rfl, rfl⟩
  · obtain rfl := eq_wordAtPc_of_fetchChecked hfetch
    rw [he, takeIllegal, takeFault, State.insnAddr_advance] at h
    cases h
    cases hf
    exact .inr ⟨hfetch, .inl ⟨hw, rfl⟩, rfl, rfl, rfl⟩
  · obtain rfl := eq_wordAtPc_of_fetchChecked hfetch
    rw [he] at h
    obtain ⟨hown, ht, hpc, hword⟩ := ownFault_of_exec_halts (s := s.advance) hm h hf
    rw [ownFault_advance] at hown
    rw [State.insnAddr_advance] at hpc
    rw [encode_of_decodeWord hw] at hword
    exact .inr ⟨hfetch, .inr ⟨i, hw, hown⟩, ht, hpc, hword⟩

/-- The host's call of a step that halts a running machine returns the record. -/
theorem hostStep_halts {odd : Config.OddFetch} {s t : State} {f : FaultRecord} (hm : s.mode = .running)
    (h : stepWith odd s = .next t) (hf : t.mode = .halted f) : hostStep odd s = .next (t, .faultRecord f) := by
  simp [hostStep, h, stepReply, hm, hf]

/-! ### The timers and the keypad (R121, R124) -/

theorem State.isHalted_eq_false_iff (s : State) : s.isHalted = false ↔ ¬ ∃ f, s.mode = .halted f := by
  rw [← s.isHalted_iff, Bool.not_eq_true]

/-- Subtraction of naturals stops at 0, as a tick does. -/
theorem toNat_tickDown (b : Byte) : (tickDown b).toNat = b.toNat - 1 := by
  unfold tickDown
  split <;> bv_omega

theorem onlyWrites_tickTimers (s : State) : OnlyWrites (fun p => p = .dt ∨ p = .st) s (tickTimers s) := by
  unfold tickTimers
  split
  · exact OnlyWrites.refl _ s
  · exact ((onlyWrites_setDt s _).mono fun _ => .inl).trans ((onlyWrites_setSt _ _).mono fun _ => .inr)

theorem onlyWrites_setKeys_set (s : State) (k : Fin 16) (pressed : Bool) :
    OnlyWrites (fun p => p = .key k) s (s.setKeys (s.keys.set k.val pressed)) := by
  refine (onlyWrites_setKeys s _).mono ?_
  rintro p ⟨j, rfl, hj⟩
  by_contra hne
  refine hj (Vector.getElem_set_ne _ _ fun hkj => hne ?_)
  rw [Fin.ext hkj]

theorem setKey_of_halted {s : State} (h : s.isHalted = true) (k : Fin 16) (pressed : Bool) :
    setKey k.val pressed s = .next (s, .nothing) := by
  rw [setKey, dif_pos k.isLt, h]
  rfl

/-! ### The refused calls (R129) -/

theorem setKey_refused {k : Nat} (h : k > 15) (pressed : Bool) (s : State) : setKey k pressed s = .refused .setKeyIndex :=
  dif_neg (by omega)

theorem resolveKey_refused_value {s : State} {x : Reg} {v : Nat} (hm : s.mode = .awaitingKey x) (hv : v > 15) :
    resolveKey v s = .refused .resolveKeyValue := by
  simp [resolveKey, hm, hv]

theorem resolveKey_refused_mode {s : State} (v : Nat) (hm : ∀ x, s.mode ≠ .awaitingKey x) :
    resolveKey v s = .refused .resolveKeyNotAwaiting := by
  unfold resolveKey
  split
  · next x hx => exact absurd hx (hm x)
  · rfl

theorem load_refused {s : State} (h : s.loaded = true) (bytes : List Byte) : load bytes s = .refused .loadTwice := if_pos h

/-! ### A step is made by a loaded machine, which stays loaded (R129, R135) -/

theorem not_mayWrite_loaded (i : Instr) (s : State) : ¬ mayWrite i s .loaded := by
  cases i <;> simp [mayWrite]

theorem exec_loaded {i : Instr} {s t : State} (h : exec i s = .next t) : t.loaded = s.loaded := by
  cases hc : ownFault i s with
  | some k =>
    obtain ⟨info, ht⟩ := exec_takesFault hc
    rw [ht] at h
    cases h
    rfl
  | none =>
    obtain ⟨u, hu, hw⟩ := exec_goesOn hc
    rw [hu] at h
    cases h
    exact hw .loaded (not_mayWrite_loaded i s)

theorem loaded_of_stepWith {odd : Config.OddFetch} {s t : State} (h : stepWith odd s = .next t) : t.loaded = true := by
  obtain ⟨-, he⟩ | ⟨hl, -, he⟩ | ⟨hl, -, k, -, he⟩ | ⟨hl, -, w, -, -, he⟩ | ⟨hl, -, w, i, -, -, he⟩ :=
    stepWith_cases odd s <;> rw [he] at h
  · cases h
  · cases h; exact hl
  · cases h; exact hl
  · cases h; exact hl
  · exact (exec_loaded h).trans hl

/-! ### The obligations -/

/-- Settles O32: a fault writes the mode alone, over the state before the base advance or over the state after it. -/
theorem faultsArePreciseAndReturned : Obligations.FaultsArePreciseAndReturned := by
  intro odd s t f hm h hf
  have hreply : hostCall odd .step s = .next (t, .faultRecord f) := hostStep_halts hm h hf
  obtain ⟨hfetch, rfl, hpc, hword⟩ | ⟨-, hcheck, rfl, hpc, hword⟩ := stepWith_halts_cases hm h hf
  · have hkind : isFetchFault f.kind = true := isFetchFault_of_fetchChecked hfetch
    rw [hkind]
    exact ⟨rfl, hpc, hword, hreply⟩
  · have hkind : isFetchFault f.kind = false := by
      obtain ⟨-, hillegal⟩ | ⟨i, -, hown⟩ := hcheck
      · rw [hillegal]; rfl
      · exact isFetchFault_of_ownFault hown
    rw [hkind]
    exact ⟨rfl, hpc, hword, hreply⟩

/-- Settles O33: the fetch by its two checks in order, then the decoder, then the eight instructions that have a check. -/
theorem faultChecksComeInOrder : Obligations.FaultChecksComeInOrder := by
  intro odd s t f hm h hf
  obtain ⟨hfetch, -⟩ | ⟨hfetch, hcheck, -⟩ := stepWith_halts_cases hm h hf
  · obtain ⟨hrange, hk⟩ | ⟨hrange, hodd, hk⟩ := fetchChecked_error hfetch
    · rw [if_pos hrange]
      exact hk
    · rw [if_neg hrange, if_pos hodd]
      exact hk
  · obtain ⟨hrange, hodd⟩ := checks_pass_of_fetchChecked_ok hfetch
    rw [if_neg hrange, if_neg hodd]
    obtain ⟨hw, hk⟩ | ⟨i, hw, hown⟩ := hcheck <;> rw [hw]
    · exact hk
    · cases i with
      | ret | call =>
        obtain ⟨hstack, hk⟩ := by simpa [ownFault] using hown
        exact ⟨hk.symm, hstack⟩
      | drw x y n =>
        obtain ⟨⟨hn, hi⟩, hk⟩ := by simpa [ownFault] using hown
        exact ⟨hk.symm, hn, by omega⟩
      | ldB | ldMemI | ldIMem =>
        obtain ⟨hi, hk⟩ := by simpa [ownFault] using hown
        exact ⟨hk.symm, by omega⟩
      | skp | sknp =>
        obtain ⟨hkey, hk⟩ := by simpa [ownFault] using hown
        exact ⟨hk.symm, hkey⟩
      | _ => cases hown

/-- Settles O34: each timer by `tickDown`, and the frame of the two writes. -/
theorem timerTickCountsDownNonzeroTimers : Obligations.TimerTickCountsDownNonzeroTimers := by
  refine fun odd s => ⟨fun h => ?_, fun h => ⟨tickTimers s, rfl, ?_⟩⟩
  · rw [hostCall, tickTimers_of_halted (s.isHalted_iff.2 h)]
  · have htick := tickTimers_of_not_halted (s.isHalted_eq_false_iff.2 h)
    refine ⟨?_, ?_, onlyWrites_tickTimers s⟩
    · rw [htick]; exact toNat_tickDown s.dt
    · rw [htick]; exact toNat_tickDown s.st

/-- Settles O36: the three outcomes of `set_key`. -/
theorem setKeyWritesOneKey : Obligations.SetKeyWritesOneKey := by
  refine fun odd s pressed => ⟨fun k hk => setKey_refused hk pressed s, fun k h => ?_, fun k h => ?_⟩
  · exact ⟨_, setKey_of_not_halted (s.isHalted_eq_false_iff.2 h) k pressed, Vector.getElem_set_self _, rfl,
      onlyWrites_setKeys_set s k pressed⟩
  · exact setKey_of_halted (s.isHalted_iff.2 h) k pressed

/-- Settles O37: the three outcomes of `resolve_key`. -/
theorem resolveKeyWritesLatchedRegister : Obligations.ResolveKeyWritesLatchedRegister := by
  refine fun odd s v => ⟨fun x hm hv => ?_, fun x hm hv => resolveKey_refused_value hm hv, resolveKey_refused_mode v⟩
  exact ⟨_, resolveKey_of_awaitingKey hm hv, toNat_reg_setReg_key s x hv, rfl, onlyWrites_setReg_setMode s x _ _⟩

/-- Settles O38: one refusal per call; a second `load` after a step is refused because no step unloads. -/
theorem hostCallsOutsideTheInterfaceAreRefused : Obligations.HostCallsOutsideTheInterfaceAreRefused := by
  refine fun odd s => ⟨fun hl => ⟨?_, stepWith_notLoaded _ s hl⟩, load_refused, fun t h => load_refused (loaded_of_stepWith h),
    fun k p hk => setKey_refused hk p s, resolveKey_refused_mode, fun x v => resolveKey_refused_value⟩
  rw [hostCall, hostStep, stepWith_notLoaded odd s hl]

end Sys2Proof.Machine
end

