-- ==== Sys2Proof/Proofs/Loading.lean ====
section
/-! PROOFS. Construction and the loader (spec/70_reset_and_hazards.md R133 to R136): what Memory holds after construction, and
what `load` copies and leaves alone. -/

namespace Sys2Proof.Machine

/-! ### The bytes of a font (R41) -/

/-- The 16 glyphs of 5 bytes lie end to end, so the library's index arithmetic for rows of one length applies. -/
theorem fontBytes_eq_flatten (font : Config.Font) : Config.fontBytes font = font.flatten.toList := by
  simp [Config.fontBytes, Vector.flatten, List.flatMap_def, Array.toList_flatten, Function.comp_def, Vector.toList_toArray]

@[simp] theorem length_fontBytes (font : Config.Font) : (Config.fontBytes font).length = 80 := by
  rw [fontBytes_eq_flatten, Vector.length_toList]

/-- Glyph `d` has its five bytes from `5*d` up. -/
theorem getElem_fontBytes (font : Config.Font) (d : Fin 16) (k : Fin 5)
    (h : 5 * d.val + k.val < (Config.fontBytes font).length) : (Config.fontBytes font)[5 * d.val + k.val] = font[d][k] := by
  have hglyph : (5 * d.val + k.val) / 5 = d.val := by omega
  have hbyte : (5 * d.val + k.val) % 5 = k.val := by omega
  simp only [fontBytes_eq_flatten, Vector.getElem_toList, Vector.getElem_flatten, hglyph, hbyte, Fin.getElem_fin]

/-! ### Memory after construction (R134) -/

theorem Memory.initial_above_font {a : Nat} (h : 0x050 ≤ a) : Memory.initial a = 0x00#8 :=
  List.getD_eq_default _ _ (by rw [length_fontBytes]; exact h)

/-- The profile's bytes start above the font, so they leave every glyph as it was copied in. -/
theorem read_construct_glyph (font : Config.Font) (profile : ResetProfile) (d : Fin 16) (k : Fin 5) :
    (construct font profile).mem.read (5 * d.val + k.val) = font[d][k] := by
  have hfont : 5 * d.val + k.val < (Config.fontBytes font).length := by rw [length_fontBytes]; omega
  rw [construct, Memory.read_writeBytes_outside _ _ _ _ (.inl (by omega)), ← getElem_fontBytes font d k hfont]
  simpa only [Nat.zero_add] using Memory.read_writeBytes_add [] 0 hfont

/-- Above the font, a byte is the profile's where the profile reaches, and the 0 of an unlisted address past its end. -/
theorem read_construct_profile (font : Config.Font) (profile : ResetProfile) {a : Nat} (hlo : 0x050 ≤ a) (hhi : a ≤ 0xFFF) :
    (construct font profile).mem.read a = profile.mem.getD (a - 0x050) 0x00#8 := by
  have hlen : (profile.mem.take (Config.memSize - 0x050)).length = min 4016 profile.mem.length := List.length_take
  rw [construct]
  by_cases h : a - 0x050 < profile.mem.length
  · rw [Memory.read_writeBytes, dif_pos ⟨hlo, by omega⟩, List.getElem_take, List.getD_eq_getElem _ _ h]
  · rw [Memory.read_writeBytes_outside _ _ _ _ (.inr (by omega)),
      Memory.read_writeBytes_outside _ _ _ _ (.inr (by rw [length_fontBytes]; omega)), List.getD_eq_default _ _ (by omega)]
    exact Memory.initial_above_font hlo

theorem key_construct (font : Config.Font) (profile : ResetProfile) (k : Fin 16) : (construct font profile).key k = false := by
  simp [construct, State.key]

/-! ### The loader (R135) -/

theorem load_tooLarge {s : State} {bytes : List Byte} (hl : s.loaded = false) (h : bytes.length > 3584) :
    load bytes s = .next (s, .loadTooLarge) := by
  rw [load, hl]
  exact if_pos h

theorem load_success {s : State} {bytes : List Byte} (hl : s.loaded = false) (h : bytes.length ≤ 3584) :
    load bytes s = .next (s.loadRom bytes, .success) := by
  rw [load, hl]
  exact if_neg (Nat.not_lt.2 h)

theorem read_loadRom (s : State) {bytes : List Byte} {k : Nat} {b : Byte} (h : bytes[k]? = some b) :
    (s.loadRom bytes).mem.read (0x200 + k) = b := by
  obtain ⟨hk, rfl⟩ := List.getElem?_eq_some_iff.1 h
  exact Memory.read_writeBytes_add s.mem 0x200 hk

theorem onlyWrites_loadRom (s : State) (bytes : List Byte) :
    OnlyWrites (fun p => p = .loaded ∨ ∃ k, k < bytes.length ∧ p = .byte (0x200 + k)) s (s.loadRom bytes) :=
  ((onlyWrites_writeBytes s 0x200 bytes).mono fun _ => .inr).trans ((onlyWrites_setLoaded _ true).mono fun _ => .inl)

/-! ### The obligations -/

/-- Settles O40: Memory by its two runs of writes, every other piece by the field construction gives it; the default profile
lists no byte. -/
theorem constructionLeavesTheListedValues : Obligations.ConstructionLeavesTheListedValues := by
  refine ⟨fun font profile => ?everyProfile, fun font => ?defaultProfile⟩
  case everyProfile =>
    exact ⟨read_construct_glyph font profile, fun a => read_construct_profile font profile, fun r => rfl, rfl, rfl, rfl, rfl,
      rfl, Screen.pixel_blank, key_construct font profile, rfl, rfl, rfl⟩
  case defaultProfile =>
    exact ⟨fun a => read_construct_profile font {}, fun r => Vector.getElem_replicate _, rfl, rfl, rfl⟩

/-- Settles O42: the three outcomes of `load`. -/
theorem loadCopiesWholeRomOrNothing : Obligations.LoadCopiesWholeRomOrNothing := by
  refine fun odd s bytes => ⟨fun hl => load_refused hl bytes, load_tooLarge, fun hl h => ?_⟩
  exact ⟨s.loadRom bytes, load_success hl h, rfl, fun k b => read_loadRom s, onlyWrites_loadRom s bytes⟩

/-- Settles O43: a constructed machine is not loaded, so `load` of a ROM that fits copies it in. -/
theorem launchStateIsConstructionThenLoad : Obligations.LaunchStateIsConstructionThenLoad := by
  intro odd font profile rom h
  exact ⟨load_success rfl h, rfl, rfl, rfl, fun k b => read_loadRom _, onlyWrites_loadRom _ rom⟩

end Sys2Proof.Machine
end

