-- ==== Sys2Proof/Proofs/MatchTable.lean ====
section
/-! PROOFS. The decoder against the encoder, the match and mask table, and the table of illegal words (spec/30_encoding.md R56
to R59). -/

namespace Sys2Proof

/-! ### A masked word shows the fields that its mask keeps (R57) -/

theorem eq_addrWord_of_mask {w v : Word} (h : w &&& 0xF000#16 = v) : w = addrWord (fieldsOf v).cls (fieldsOf w).nnn := by
  have hcls : (fieldsOf v).cls = (fieldsOf w).cls := by
    rw [← h, ← addrWord_fieldsOf w, addrWord_maskF000, fieldsOf_addrWord, fieldsOf_addrWord]
  rw [hcls, addrWord_fieldsOf]

theorem eq_nibbleWord_of_mask {w v : Word} (h : w &&& 0xF00F#16 = v) :
    w = nibbleWord (fieldsOf v).cls (fieldsOf w).x (fieldsOf w).y (fieldsOf v).n := by
  have hv : fieldsOf v = fieldsOf (nibbleWord (fieldsOf w).cls 0 0 (fieldsOf w).n) := by
    rw [← nibbleWord_maskF00F _ (fieldsOf w).x (fieldsOf w).y, nibbleWord_fieldsOf, h]
  rw [hv, fieldsOf_nibbleWord, nibbleWord_fieldsOf]

theorem eq_immWord_of_mask {w v : Word} (h : w &&& 0xF0FF#16 = v) :
    w = immWord (fieldsOf v).cls (fieldsOf w).x (fieldsOf v).kk := by
  have hv : fieldsOf v = fieldsOf (immWord (fieldsOf w).cls 0 (fieldsOf w).kk) := by
    rw [← immWord_maskF0FF _ (fieldsOf w).x, immWord_fieldsOf, h]
  rw [hv, fieldsOf_immWord, immWord_fieldsOf]

/-! ### A row that matches a word is the row the dispatch selects (R57, R58) -/

/-- By the mask of the row: the fields it keeps are those the dispatch looks at. -/
theorem map_rowOf_decodeWord {i : Instr} {w : Word} (h : rowMatches (rowOf i) w = true) :
    (decodeWord w).map rowOf = some (rowOf i) := by
  have hmask : w &&& (rowOf i).mask = (rowOf i).value := beq_iff_eq.1 h
  cases i <;> simp only [rowOf] at hmask
  case cls | ret =>
    rw [show w = _ from BitVec.and_allOnes.symm.trans hmask]
    rfl
  case jp | call | seImm | sneImm | ldImm | addImm | ldI | jpV0 | rnd | drw =>
    rw [eq_addrWord_of_mask hmask, decodeWord, fieldsOf_addrWord]
    rfl
  case seReg | ldReg | or | and | xor | addReg | sub | shr | subn | shl | sneReg =>
    rw [eq_nibbleWord_of_mask hmask, decodeWord, fieldsOf_nibbleWord]
    rfl
  case skp | sknp | ldVxDt | ldVxK | ldDt | ldSt | addI | ldF | ldB | ldMemI | ldIMem =>
    rw [eq_immWord_of_mask hmask, decodeWord, fieldsOf_immWord]
    rfl

/-- Every instruction's word matches its own row. -/
theorem Laws.EncodeRow.of_instr (i : Instr) : Statement i := by
  cases i
  exacts [cls, ret, jp _, call _, seImm _ _, sneImm _ _, seReg _ _, ldImm _ _, addImm _ _, ldReg _ _, or _ _, and _ _,
    xor _ _, addReg _ _, sub _ _, shr _ _, subn _ _, shl _ _, sneReg _ _, ldI _, jpV0 _, rnd _ _, drw _ _ _, skp _, sknp _,
    ldVxDt _, ldVxK _, ldDt _, ldSt _, addI _, ldF _, ldB _, ldMemI _, ldIMem _]

/-- One instruction of each row, in the table's order. -/
def rowInstrs : List Instr :=
  [.cls, .ret, .jp 0, .call 0, .seImm 0 0, .sneImm 0 0, .seReg 0 0, .ldImm 0 0, .addImm 0 0, .ldReg 0 0, .or 0 0, .and 0 0,
    .xor 0 0, .addReg 0 0, .sub 0 0, .shr 0 0, .subn 0 0, .shl 0 0, .sneReg 0 0, .ldI 0, .jpV0 0, .rnd 0 0, .drw 0 0 0, .skp 0,
    .sknp 0, .ldVxDt 0, .ldVxK 0, .ldDt 0, .ldSt 0, .addI 0, .ldF 0, .ldB 0, .ldMemI 0, .ldIMem 0]

theorem opcodeTable_eq_map : opcodeTable = rowInstrs.map rowOf := rfl

/-- A row of the table that matches a word is the row of the instruction the word decodes to. -/
theorem map_rowOf_decodeWord_of_rowMatches {r : Row} {w : Word} (hr : r ∈ opcodeTable) (h : rowMatches r w = true) :
    (decodeWord w).map rowOf = some r := by
  rw [opcodeTable_eq_map] at hr
  obtain ⟨i, -, rfl⟩ := List.mem_map.1 hr
  exact map_rowOf_decodeWord h

theorem matchWord_eq (w : Word) : matchWord w = (decodeWord w).map rowOf := by
  cases hm : matchWord w with
  | some r =>
    have hr : r ∈ opcodeTable := List.mem_of_find?_eq_some hm
    exact (map_rowOf_decodeWord_of_rowMatches hr (List.find?_some (p := (rowMatches · w)) hm)).symm
  | none =>
    cases hd : decodeWord w with
    | none => rfl
    | some i =>
      obtain ⟨hmatch, hmem⟩ := Laws.EncodeRow.of_instr i
      rw [encode_of_decodeWord hd] at hmatch
      exact absurd hmatch (List.find?_eq_none.1 hm _ hmem)

/-! ### The table of illegal words (R59) -/

theorem isSome_decodeClass8 (f : Fields) :
    (decodeClass8 f).isSome = !([0x8#4, 0x9#4, 0xA#4, 0xB#4, 0xC#4, 0xD#4, 0xF#4].contains f.n) := by
  obtain ⟨k, hk⟩ : ∃ k, f.n = BitVec.ofFin k := ⟨f.n.toFin, rfl⟩
  rw [decodeClass8, hk]
  fin_cases k <;> rfl

theorem isSome_decodeClassE (f : Fields) : (decodeClassE f).isSome = [0x9E#8, 0xA1#8].contains f.kk := by
  unfold decodeClassE
  split
  · next h => rw [h]; rfl
  · split
    · next h => rw [h]; rfl
    · next h h' => simp [h, h']

theorem isSome_decodeClassF (f : Fields) :
    (decodeClassF f).isSome =
      [0x07#8, 0x0A#8, 0x15#8, 0x18#8, 0x1E#8, 0x29#8, 0x33#8, 0x55#8, 0x65#8].contains f.kk := by
  unfold decodeClassF
  split
  -- `h_10` is every value of `kk` but the nine
  case h_10 => simp_all [BitVec.toNat_eq]
  all_goals next h => rw [show f.kk = BitVec.ofNat 8 f.kk.toNat by simp, h]; rfl

/-- In class 0x0 the address field tells the words apart. -/
theorem isSome_decodeClass0 {w : Word} (h : (fieldsOf w).cls = 0x0#4) :
    (decodeClass0 (fieldsOf w)).isSome = legalClass0 w := by
  have hw : addrWord (fieldsOf w).cls (fieldsOf w).nnn = w := addrWord_fieldsOf w
  rw [h] at hw
  have hiff (nnn : Addr) : (fieldsOf w).nnn = nnn ↔ w = addrWord 0x0#4 nnn :=
    ⟨fun hn => by rw [← hn, hw], fun hn => by rw [hn, fieldsOf_addrWord]⟩
  unfold decodeClass0
  split
  · next hn => rw [(hiff _).1 hn]; rfl
  · next hcls =>
    split
    · next hn => rw [(hiff _).1 hn]; rfl
    · next hret =>
      have hcls' : w ≠ 0x00E0#16 := mt (hiff 0x0E0#12).2 hcls
      have hret' : w ≠ 0x00EE#16 := mt (hiff 0x0EE#12).2 hret
      simp [legalClass0, hcls', hret']

theorem isSome_ite_regSkip (w : Word) (i : Instr) :
    (if (fieldsOf w).n = 0x0#4 then some i else none).isSome = legalRegSkip w := by
  unfold legalRegSkip
  split
  · next h => exact (beq_iff_eq.2 h).symm
  · next h => exact (beq_eq_false_iff_ne.2 h).symm

theorem isSome_decodeWord (w : Word) : (decodeWord w).isSome = legalWord w := by
  obtain ⟨c, hc⟩ : ∃ c : Fin 16, (fieldsOf w).cls = BitVec.ofFin c := ⟨(fieldsOf w).cls.toFin, rfl⟩
  have hlegal : (w.extractLsb' 12 4).toNat = c.val := congrArg BitVec.toNat hc
  rw [decodeWord, decodeFields, legalWord, hlegal, show (fieldsOf w).cls.toNat = c.val from hlegal]
  fin_cases c
  -- the classes 0x0 to 0xF in order; those without an illegal word are closed by `rfl`
  exacts [isSome_decodeClass0 hc, rfl, rfl, rfl, rfl, isSome_ite_regSkip w _, rfl, rfl, isSome_decodeClass8 _,
    isSome_ite_regSkip w _, rfl, rfl, rfl, rfl, isSome_decodeClassE _, isSome_decodeClassF _]

end Sys2Proof

namespace Sys2Proof.Machine
/-- Settles O46, by the two directions of the round trip. -/
theorem decodeAndEncodeAreInverse : Obligations.DecodeAndEncodeAreInverse :=
  fun _ i => ⟨encode_of_decodeWord, fun h => h ▸ decodeWord_encode i⟩

/-- Settles O47: a row that matches is the row of the decoded instruction, so there is at most one. -/
theorem dispatchAndMatchTableSelectTheSameRow : Obligations.DispatchAndMatchTableSelectTheSameRow := by
  refine ⟨rfl, fun w => ⟨matchWord_eq w, fun r hr r' hr' h h' => ?_⟩⟩
  have hrow := map_rowOf_decodeWord_of_rowMatches hr h
  exact Option.some.inj (hrow.symm.trans (map_rowOf_decodeWord_of_rowMatches hr' h'))

/-- Settles O48, class by class. -/
theorem everyWordIsAnInstructionOrListedIllegal : Obligations.EveryWordIsAnInstructionOrListedIllegal :=
  ⟨isSome_decodeWord, rfl⟩

/-- Settles O49, word by word. -/
theorem wordsOfTheSpecDecodeAsItSays : Obligations.WordsOfTheSpecDecodeAsItSays := by
  unfold Obligations.WordsOfTheSpecDecodeAsItSays
  decide

end Sys2Proof.Machine
end

