-- ==== Sys2Proof/Proofs/Outcomes.lean ====
section
/-! PROOFS. What an executed instruction, a step and a host call leave in the state, said once for the statements about the whole
machine: an instruction takes its fault or writes within its frame (spec/40_step_cycle.md R71, R72), and a host call that goes
on is one of seven changes of the state (spec/60_exceptions.md R127). -/

namespace Sys2Proof.Machine

/-! ### The shared operations -/

theorem rangeChecked_next {s t ok : State} {count : Nat} {word : Word} (h : rangeChecked s count word ok = .next t) :
    (s.i.toNat + count ≤ 4096 ∧ t = ok) ∨ ∃ f, t = s.halt f := by
  obtain ⟨hi, he⟩ | ⟨-, he⟩ := rangeChecked_cases s count word ok <;> rw [he] at h <;> cases h
  · exact .inl ⟨hi, rfl⟩
  · exact .inr ⟨_, rfl⟩

theorem exec_call_next {s t : State} {nnn : Addr} (h : exec (.call nnn) s = .next t) :
    (s.stack.length < 16 ∧ t = { s with stack := s.stack ++ [s.pc], pc := addrOperand nnn }) ∨ ∃ f, t = s.halt f := by
  obtain hroom | hfull := lt_or_ge s.stack.length 16
  · rw [exec_call_room nnn hroom] at h
    exact .inl ⟨hroom, (Host.Outcome.next.inj h).symm⟩
  · exact .inr ⟨_, Host.Outcome.next.inj (h.symm.trans (exec_call_full nnn hfull))⟩

theorem exec_ret_next {s t : State} (h : exec .ret s = .next t) :
    (∃ rest v, s.stack = rest ++ [v] ∧ t = { s with pc := v, stack := rest }) ∨ ∃ f, t = s.halt f := by
  obtain hempty | ⟨rest, v, hstack⟩ := s.stack.eq_nil_or_concat'
  · exact .inr ⟨_, Host.Outcome.next.inj (h.symm.trans (exec_ret_empty hempty))⟩
  · rw [exec_ret_top hstack] at h
    exact .inl ⟨rest, v, hstack, (Host.Outcome.next.inj h).symm⟩

theorem keySkip_next {s t : State} {x : Reg} {wanted : Bool} {word : Word} (h : keySkip s x wanted word = .next t) :
    (∃ c, t = s.skip c) ∨ ∃ f, t = s.halt f := by
  unfold keySkip at h
  split at h <;> cases h
  · exact .inr ⟨_, rfl⟩
  · exact .inl ⟨_, rfl⟩

theorem exec_drw_next {s t : State} {x y : Reg} {n : Nibble} (h : exec (.drw x y n) s = .next t) :
    t = drawSprite s (s.reg x) (s.reg y) (s.mem.readBytes s.i.toNat n.toNat) ∨ ∃ f, t = s.halt f := by
  change execDrw x y n s = _ at h
  unfold execDrw at h
  split at h
  · exact .inl (Host.Outcome.next.inj h).symm
  · exact (rangeChecked_next h).imp_left And.right

/-! ### An executed instruction -/

/-- An instruction that has changed a piece other than the mode has it on the Writes line of its rule. -/
theorem mayWrite_of_exec {i : Instr} {s t : State} {p : Piece} (h : exec i s = .next t) (hp : ¬ samePiece p s t)
    (hmode : p ≠ .mode) : mayWrite i s p := by
  cases hc : ownFault i s with
  | some k =>
    obtain ⟨info, hfault⟩ := exec_takesFault hc
    rw [hfault] at h
    cases h
    exact absurd (onlyWrites_setMode s _ p hmode) hp
  | none =>
    by_contra hn
    exact hp (onlyWrites_of_exec h hc p hn)

/-- An executed instruction leaves Memory alone, or stores bytes from I up that all lie within Memory. -/
theorem exec_mem {i : Instr} {s t : State} (h : exec i s = .next t) :
    t.mem = s.mem ∨ ∃ bytes, s.i.toNat + bytes.length ≤ 4096 ∧ t.mem = s.mem.writeBytes s.i.toNat bytes := by
  cases i with
  | ldB x =>
    obtain ⟨hfits, rfl⟩ | ⟨f, rfl⟩ := rangeChecked_next h
    · exact .inr ⟨decimalDigits (s.reg x), hfits, rfl⟩
    · exact .inl rfl
  | ldMemI x =>
    obtain ⟨hfits, rfl⟩ | ⟨f, rfl⟩ := rangeChecked_next h
    · exact .inr ⟨s.regsUpTo x, by rw [State.length_regsUpTo]; exact hfits, rfl⟩
    · exact .inl rfl
  | ldIMem x =>
    obtain ⟨-, rfl⟩ | ⟨f, rfl⟩ := rangeChecked_next h
    · exact .inl (by rw [State.setRegs_eq_setV, State.setV_mem])
    · exact .inl rfl
  | drw x y n => obtain rfl | ⟨f, rfl⟩ := exec_drw_next h <;> exact .inl rfl
  | ret => obtain ⟨rest, v, -, rfl⟩ | ⟨f, rfl⟩ := exec_ret_next h <;> exact .inl rfl
  | call nnn => obtain ⟨-, rfl⟩ | ⟨f, rfl⟩ := exec_call_next h <;> exact .inl rfl
  | skp x | sknp x =>
    obtain ⟨c, rfl⟩ | ⟨f, rfl⟩ := keySkip_next h
    · exact .inl (s.skip_mem c)
    · exact .inl rfl
  | seImm | sneImm | seReg | sneReg => cases h; exact .inl (s.skip_mem _)
  | _ => cases h; exact .inl rfl

theorem exec_stack_length_le {i : Instr} {s t : State} (h : exec i s = .next t) (hs : s.stack.length ≤ 16) :
    t.stack.length ≤ 16 := by
  by_cases hp : samePiece .stack s t
  · exact (congrArg List.length hp).trans_le hs
  · have hw : mayWrite i s .stack := mayWrite_of_exec h hp (by simp)
    cases i with
    | ret =>
      obtain ⟨rest, v, hstack, rfl⟩ | ⟨f, rfl⟩ := exec_ret_next h
      · rw [hstack, List.length_append] at hs
        exact (Nat.le_add_right _ _).trans hs
      · exact hs
    | call nnn =>
      obtain ⟨hroom, rfl⟩ | ⟨f, rfl⟩ := exec_call_next h
      · simpa using hroom
      · exact hs
    | _ => simp [mayWrite] at hw

/-- An executed instruction leaves the Screen and the redraw flag, or it is a drawing instruction and sets the flag. -/
theorem exec_redraw {i : Instr} {s t : State} (h : exec i s = .next t) :
    (t.redraw = s.redraw ∧ t.screen = s.screen) ∨ (t.redraw = true ∧ (i = .cls ∨ ∃ x y n, i = .drw x y n)) := by
  have hkeep (p : Piece) (hw : ¬ mayWrite i s p) (hmode : p ≠ .mode) : samePiece p s t := by
    by_contra hp
    exact hw (mayWrite_of_exec h hp hmode)
  cases i with
  | cls =>
    cases h
    exact .inr ⟨rfl, .inl rfl⟩
  | drw x y n =>
    obtain rfl | ⟨f, rfl⟩ := exec_drw_next h
    · exact .inr ⟨rfl, .inr ⟨x, y, n, rfl⟩⟩
    · exact .inl ⟨rfl, rfl⟩
  | _ =>
    have hredraw := hkeep .redraw (by simp [mayWrite]) (by simp)
    exact .inl ⟨hredraw, Screen.ext_pixel fun x y => hkeep (.pixel x y) (by simp [mayWrite]) (by simp)⟩

/-! ### A step -/

theorem stepWith_of_not_running {odd : Config.OddFetch} {s : State} (hl : s.loaded = true) (hm : s.mode ≠ .running) :
    stepWith odd s = .next s := by
  cases hmode : s.mode with
  | running => exact absurd hmode hm
  | awaitingKey x => exact stepWith_awaiting odd s hl x hmode
  | halted f => exact stepWith_halted odd s hl f hmode

/-- Everything a step that goes on can have done. -/
theorem stepWith_next {odd : Config.OddFetch} {s t : State} (h : stepWith odd s = .next t) :
    t = s ∨ (∃ f, t = s.halt f) ∨ (∃ f, t = s.advance.halt f) ∨
      ∃ i, decodeWord (wordAtPc s) = some i ∧ exec i s.advance = .next t := by
  obtain ⟨-, he⟩ | ⟨-, -, he⟩ | ⟨-, -, f, -, he⟩ | ⟨-, -, w, -, -, he⟩ | ⟨-, -, w, i, hf, hi, he⟩ :=
    stepWith_cases odd s <;> rw [he] at h
  · cases h
  · cases h; exact .inl rfl
  · cases h; exact .inr (.inl ⟨_, rfl⟩)
  · cases h; exact .inr (.inr (.inl ⟨_, rfl⟩))
  · exact .inr (.inr (.inr ⟨i, eq_wordAtPc_of_fetchChecked hf ▸ hi, h⟩))

/-- A piece other than PC and the mode that a step has changed is on the Writes line of the instruction at PC. -/
theorem mayWrite_of_stepWith {odd : Config.OddFetch} {s t : State} {p : Piece} (h : stepWith odd s = .next t)
    (hp : ¬ samePiece p s t) (hpc : p ≠ .pc) (hmode : p ≠ .mode) :
    ∃ i, decodeWord (wordAtPc s) = some i ∧ mayWrite i s.advance p := by
  have hadv : samePiece p s s.advance := onlyWrites_setPc s _ p hpc
  obtain rfl | ⟨f, rfl⟩ | ⟨f, rfl⟩ | ⟨i, hi, hx⟩ := stepWith_next h
  · exact absurd (samePiece_refl p t) hp
  · exact absurd (onlyWrites_setMode s _ p hmode) hp
  · exact absurd (samePiece_trans hadv (onlyWrites_setMode s.advance _ p hmode)) hp
  · exact ⟨i, hi, mayWrite_of_exec hx (fun hsame => hp (samePiece_trans hadv hsame)) hmode⟩

/-! ### A host call -/

/-- A `load` that goes on: the ROM was too large, or it fits and is copied into a machine that was not loaded (R135). -/
theorem load_fits {bytes : List Byte} {s t : State} {r : Reply} (h : load bytes s = .next (t, r)) :
    t = s ∨ (s.loaded = false ∧ bytes.length ≤ 3584 ∧ t = s.loadRom bytes) := by
  obtain ⟨hl, -⟩ := load_next h
  obtain hfits | hlarge := le_or_gt bytes.length 3584
  · rw [load_success hl hfits] at h
    cases h
    exact .inr ⟨hl, hfits, rfl⟩
  · rw [load_tooLarge hl hlarge] at h
    cases h
    exact .inl rfl

/-- What a host call that goes on does to the state: the move it makes from `s`. -/
inductive HostMove (odd : Config.OddFetch) (s : State) : HostOp → State → Prop where
  | step {t : State} (h : stepWith odd s = .next t) : HostMove odd s .step t
  | load {bytes : List Byte} (hl : s.loaded = false) (hfits : bytes.length ≤ 3584) :
      HostMove odd s (.load bytes) (s.loadRom bytes)
  | resolveKey {x : Reg} {v : Nat} (hm : s.mode = .awaitingKey x) :
      HostMove odd s (.resolveKey v) ((s.setReg x (BitVec.ofNat 8 v)).setMode .running)
  | tickTimers : HostMove odd s .tickTimers ((s.setDt (tickDown s.dt)).setSt (tickDown s.st))
  | setKey {k : Nat} {pressed : Bool} (keys : Vector Bool 16) : HostMove odd s (.setKey k pressed) (s.setKeys keys)
  | clearRedrawFlag : HostMove odd s .clearRedrawFlag (s.setRedraw false)
  | stay {op : HostOp} (hop : op ≠ .step) : HostMove odd s op s

theorem hostMove_of_hostCall {odd : Config.OddFetch} {op : HostOp} {s t : State} {r : Reply}
    (h : hostCall odd op s = .next (t, r)) : HostMove odd s op t := by
  cases op with
  | step => exact .step (hostStep_next h)
  | load bytes =>
    obtain rfl | ⟨hl, hfits, rfl⟩ := load_fits h
    · exact .stay (by simp)
    · exact .load hl hfits
  | resolveKey v =>
    obtain ⟨x, hm, -, rfl⟩ := resolveKey_next h
    exact .resolveKey hm
  | tickTimers =>
    cases h
    cases hh : s.isHalted with
    | true => rw [tickTimers_of_halted hh]; exact .stay (by simp)
    | false => rw [tickTimers_of_not_halted hh]; exact .tickTimers
  | setKey k pressed =>
    obtain ⟨-, rfl⟩ | ⟨-, keys, rfl⟩ := setKey_next h
    · exact .stay (by simp)
    · exact .setKey keys
  | clearRedrawFlag =>
    cases h
    cases hh : s.isHalted with
    | true => rw [clearRedrawFlag_of_halted hh]; exact .stay (by simp)
    | false => rw [clearRedrawFlag_of_not_halted (s.isHalted_eq_false_iff.1 hh)]; exact .clearRedrawFlag
  | _ => cases h; exact .stay (by simp)

end Sys2Proof.Machine
end

