-- ==== Sys2Proof/Proofs/Invariant.lean ====
section
/-! PROOFS. The invariant `StateInv`: construction gives it, and every step, every host call and every session keeps it. -/

namespace Sys2Proof.Machine

theorem haltShowsFault_iff (s : State) : haltShowsFault s ↔ ∀ f, s.mode = .halted f →
    (f.word = none ↔ isFetchFault f.kind = true) ∧ s.pc = if isFetchFault f.kind then f.pcInsn else f.pcInsn + 2 := by
  unfold haltShowsFault
  cases s.mode <;> simp

/-! ### A step (R64 to R69) -/

/-- A step halts a running machine before the base advance and with no word, or after it and with the word at PC. -/
theorem haltShowsFault_of_stepWith {odd : Config.OddFetch} {s t : State} (hm : s.mode = .running)
    (h : stepWith odd s = .next t) : haltShowsFault t := by
  refine (haltShowsFault_iff t).2 fun f hf => ?_
  obtain ⟨ht, hpc, hword, -⟩ := faultsArePreciseAndReturned odd s t f hm h hf
  rw [hword, hpc, ht]
  cases isFetchFault f.kind <;> simp

theorem wf_mem_of_exec {i : Instr} {s t : State} (h : exec i s = .next t) (hs : s.mem.wf = true) : t.mem.wf = true := by
  obtain hsame | ⟨bytes, hfits, hstore⟩ := exec_mem h
  · rw [hsame]; exact hs
  · rw [hstore]; exact Memory.wf_writeBytes hfits hs

theorem eq_of_stepWith_of_not_running {odd : Config.OddFetch} {s t : State} (hm : s.mode ≠ .running)
    (h : stepWith odd s = .next t) : t = s := by
  obtain ⟨-, he⟩ | ⟨-, -, he⟩ | ⟨-, hrun, -⟩ | ⟨-, hrun, -⟩ | ⟨-, hrun, -⟩ := stepWith_cases odd s
  · rw [he] at h; cases h
  · rw [he] at h; cases h; rfl
  all_goals exact absurd hrun hm

theorem wf_mem_of_stepWith {odd : Config.OddFetch} {s t : State} (h : stepWith odd s = .next t) (hs : s.mem.wf = true) :
    t.mem.wf = true := by
  obtain rfl | ⟨f, rfl⟩ | ⟨f, rfl⟩ | ⟨i, -, hx⟩ := stepWith_next h
  · exact hs
  · exact hs
  · exact hs
  · exact wf_mem_of_exec hx hs

theorem stack_length_le_of_stepWith {odd : Config.OddFetch} {s t : State} (h : stepWith odd s = .next t)
    (hs : s.stack.length ≤ 16) : t.stack.length ≤ 16 := by
  obtain rfl | ⟨f, rfl⟩ | ⟨f, rfl⟩ | ⟨i, -, hx⟩ := stepWith_next h
  · exact hs
  · exact hs
  · exact hs
  · exact exec_stack_length_le hx hs

theorem stateInv_of_stepWith {odd : Config.OddFetch} {s t : State} (hs : StateInv s) (h : stepWith odd s = .next t) :
    StateInv t := by
  by_cases hm : s.mode = .running
  · exact ⟨wf_mem_of_stepWith h hs.memCanonical, stack_length_le_of_stepWith h hs.stackBounded,
      fun _ => loaded_of_stepWith h, haltShowsFault_of_stepWith hm h⟩
  · rw [eq_of_stepWith_of_not_running hm h]
    exact hs

/-! ### Construction (R134) and the loader (R135) -/

theorem stateInv_construct (font : Config.Font) (profile : ResetProfile) : StateInv (construct font profile) := by
  refine ⟨?_, Nat.zero_le _, fun h => absurd rfl h, trivial⟩
  have hfont : (Memory.writeBytes [] 0 (Config.fontBytes font)).wf = true :=
    Memory.wf_writeBytes (by rw [length_fontBytes]; omega) rfl
  exact Memory.wf_writeBytes (by simp only [List.length_take, Config.memSize]; omega) hfont

theorem stateInv_loadRom {s : State} {bytes : List Byte} (hs : StateInv s) (h : bytes.length ≤ 3584) :
    StateInv (s.loadRom bytes) :=
  ⟨Memory.wf_writeBytes (by simp only [Config.programBase]; omega) hs.memCanonical, hs.stackBounded, fun _ => rfl, hs.haltedRecord⟩

/-! ### Host calls and sessions (R127, R128) -/

theorem stateInv_of_hostCall {odd : Config.OddFetch} {op : HostOp} {s t : State} {r : Reply} (hs : StateInv s)
    (h : hostCall odd op s = .next (t, r)) : StateInv t := by
  cases hostMove_of_hostCall h with
  | step hstep => exact stateInv_of_stepWith hs hstep
  | load _ hfits => exact stateInv_loadRom hs hfits
  | resolveKey _ => exact ⟨hs.memCanonical, hs.stackBounded, fun hm => absurd rfl hm, trivial⟩
  | tickTimers | setKey | clearRedrawFlag =>
    exact ⟨hs.memCanonical, hs.stackBounded, hs.stoppedOnlyLoaded, hs.haltedRecord⟩
  | stay _ => exact hs

/-- A predicate that every host call keeps holds at the end of every session that starts from it. -/
theorem hostRun_induction {odd : Config.OddFetch} {P : State → Prop}
    (hcall : ∀ {op s t r}, P s → hostCall odd op s = .next (t, r) → P t) {ops : List HostOp} {s t : State} (hs : P s)
    (h : hostRun odd ops s = .next t) : P t := by
  induction ops generalizing s with
  | nil => cases h; exact hs
  | cons op rest ih =>
    unfold hostRun at h
    split at h
    · next hop => exact ih (hcall hs hop) h
    · cases h
    · cases h

/-! ### The obligations -/

/-- Settles O51: Memory and the stack by what an instruction stores and pushes, the halted record by R116. -/
theorem everyStepKeepsTheInvariant : Obligations.EveryStepKeepsTheInvariant :=
  fun _ _ _ => stateInv_of_stepWith

/-- Settles O58, by the moves of a host call. -/
theorem everyHostCallKeepsTheInvariant : Obligations.EveryHostCallKeepsTheInvariant :=
  ⟨fun _ _ _ _ _ => stateInv_of_hostCall, stateInv_construct⟩

/-- Settles O52, by induction on the session. -/
theorem everyHostSessionKeepsTheInvariant : Obligations.EveryHostSessionKeepsTheInvariant :=
  fun _ font profile _ _ => hostRun_induction stateInv_of_hostCall (stateInv_construct font profile)

/-- Settles O50: the machine right after construction runs, and lists no byte and no return address. -/
theorem invariantHoldsAtReset : Obligations.InvariantHoldsAtReset :=
  ⟨rfl, Nat.zero_le _, fun h => absurd rfl h, trivial⟩

/-- Settles O29: every call of the session leaves the halted machine it meets. -/
theorem haltedMachineIsFrozen : Obligations.HaltedMachineIsFrozen := by
  intro odd s t f ops hl hm
  refine hostRun_induction (P := (· = s)) ?_ rfl
  rintro op _ t r rfl h
  exact hostCall_of_halted hl hm h

end Sys2Proof.Machine
end

