-- ==== Sys2Proof/Proofs/Draw.lean ====
section
/-! PROOFS. `Dxyn` (spec/41_display.md R76): one draw, and two equal draws in a row (spec/95_test_vectors.md L1 EX4). -/

namespace Sys2Proof.Machine

/-! ### One draw -/

/-- The state after `Dxyn` where it goes on. -/
def drawn (s : State) (x y : Reg) (n : Nibble) : State :=
  drawSprite s (s.reg x) (s.reg y) (s.mem.readBytes s.i.toNat n.toNat)

theorem pixel_drawn_of_landsOn {s : State} {x y : Reg} {n : Nibble} {px : Fin 64} {py : Fin 32}
    (h : SpriteLandsOn s x y n px py) : (drawn s x y n).screen.pixel px py = !s.screen.pixel px py :=
  (blitRows_pixel _ _ 0 _ _ (by rw [Memory.length_readBytes]; omega) px py).1
    ((spriteCovers_iff_spriteLandsOn s x y n px py).2 h)

theorem pixel_drawn_of_not_landsOn {s : State} {x y : Reg} {n : Nibble} {px : Fin 64} {py : Fin 32}
    (h : ¬ SpriteLandsOn s x y n px py) : (drawn s x y n).screen.pixel px py = s.screen.pixel px py :=
  onlyWrites_draw s x y n (.pixel px py) (by simpa [mayWrite] using h)

/-- The collision of the draw that `Dxyn` makes. -/
def drawCollision (s : State) (x y : Reg) (n : Nibble) : Bool :=
  (blitRows (s.reg x) (s.reg y) 0 (s.mem.readBytes s.i.toNat n.toNat) { screen := s.screen, collision := false }).collision

theorem reg_drawn_vf (s : State) (x y : Reg) (n : Nibble) : (drawn s x y n).reg 0xF = flagByte (drawCollision s x y n) :=
  (drawSprite_reg ..).trans (if_pos rfl)

theorem drawCollision_iff (s : State) (x y : Reg) (n : Nibble) :
    drawCollision s x y n = true ↔ ∃ px py, SpriteLandsOn s x y n px py ∧ s.screen.pixel px py = true := by
  rw [drawCollision, blitRows_collision _ _ _ _ _ (by rw [Memory.length_readBytes]; omega)]
  simp [spriteCovers_iff_spriteLandsOn]

theorem reg_drawn_vf_of_collision {s : State} {x y : Reg} {n : Nibble}
    (h : ∃ px py, SpriteLandsOn s x y n px py ∧ s.screen.pixel px py = true) : (drawn s x y n).reg 0xF = 0x01#8 := by
  rw [reg_drawn_vf, (drawCollision_iff s x y n).2 h]
  rfl

theorem reg_drawn_vf_of_no_collision {s : State} {x y : Reg} {n : Nibble}
    (h : ¬ ∃ px py, SpriteLandsOn s x y n px py ∧ s.screen.pixel px py = true) : (drawn s x y n).reg 0xF = 0x00#8 := by
  rw [reg_drawn_vf, eq_false_of_ne_true (mt (drawCollision_iff s x y n).1 h)]
  rfl

/-- The range check of the statements: the last row's address is a 12-bit one. -/
theorem exec_drw_inRange {s : State} (x y : Reg) {n : Nibble} (h : n = 0x0#4 ∨ s.i.toNat + n.toNat - 1 ≤ 0xFFF) :
    exec (.drw x y n) s = .next (drawn s x y n) :=
  exec_drw_goesOn s x y (h.imp_right fun hi => by omega)

/-! ### A second equal draw (L1 EX4) -/

/-- A draw leaves what the next one reads, as long as neither coordinate is in VF. -/
theorem spriteLandsOn_drawn {s : State} {x y : Reg} {n : Nibble} (hx : x ≠ 0xF) (hy : y ≠ 0xF) (px : Fin 64) (py : Fin 32) :
    SpriteLandsOn (drawn s x y n) x y n px py ↔ SpriteLandsOn s x y n px py := by
  have hreg {q : Reg} (hq : q ≠ 0xF) : (drawn s x y n).reg q = s.reg q := (drawSprite_reg ..).trans (if_neg hq)
  rw [SpriteLandsOn, hreg hx, hreg hy]
  rfl

/-- A pixel under the sprite flips twice, any other not at all. -/
theorem screen_drawn_drawn {s : State} {x y : Reg} {n : Nibble} (hx : x ≠ 0xF) (hy : y ≠ 0xF) :
    (drawn (drawn s x y n) x y n).screen = s.screen := by
  refine Screen.ext_pixel fun px py => ?_
  have hlands := spriteLandsOn_drawn (s := s) (n := n) hx hy px py
  by_cases h : SpriteLandsOn s x y n px py
  · rw [pixel_drawn_of_landsOn (hlands.2 h), pixel_drawn_of_landsOn h, Bool.not_not]
  · rw [pixel_drawn_of_not_landsOn (mt hlands.1 h), pixel_drawn_of_not_landsOn h]

/-- The second draw meets a lit pixel exactly where the first has lit one. -/
theorem collides_drawn_iff {s : State} {x y : Reg} {n : Nibble} (hx : x ≠ 0xF) (hy : y ≠ 0xF) :
    (∃ px py, SpriteLandsOn (drawn s x y n) x y n px py ∧ (drawn s x y n).screen.pixel px py = true) ↔
      ∃ px py, SpriteLandsOn s x y n px py ∧ s.screen.pixel px py = false := by
  refine exists_congr fun px => exists_congr fun py => ?_
  rw [spriteLandsOn_drawn hx hy]
  refine and_congr_right fun h => ?_
  rw [pixel_drawn_of_landsOn h, Bool.not_eq_true']

/-! ### A sprite over lit pixels only (log entry 16) -/

/-- Every pixel lit, and I at the first glyph of the font, whose top row is `F0`. -/
def allLit : State := { State.reset with screen := Vector.replicate 32 (Vector.replicate 64 true) }

theorem pixel_allLit (px : Fin 64) (py : Fin 32) : allLit.screen.pixel px py = true := by
  simp [allLit, Screen.pixel]

theorem spriteLandsOn_allLit : SpriteLandsOn allLit 0x0 0x0 0x1#4 0 0 :=
  ⟨0, 0, by decide, by decide, by decide, rfl, rfl⟩

/-! ### The obligations -/

/-- Settles O2: in range, the pixels and the collision of one draw; out of range, the check comes before the first write. -/
theorem drawXorsSpriteAndSetsCollision : Obligations.DrawXorsSpriteAndSetsCollision := by
  refine fun x y n => ⟨encodesAs_encode (.drw x y n), fun s => ⟨fun h => ?inRange, fun ⟨hn, h⟩ => ?outOfRange⟩⟩
  case inRange =>
    exact ⟨_, exec_drw_inRange x y h, fun px py => pixel_drawn_of_landsOn, reg_drawn_vf_of_collision,
      reg_drawn_vf_of_no_collision, rfl, onlyWrites_draw s x y n⟩
  case outOfRange =>
    have hexec : exec (.drw x y n) s = rangeChecked s n.toNat (encode (.drw x y n)) (drawn s x y n) := if_neg hn
    rw [hexec]
    exact rangeChecked_takesFault s _ _ (by omega)

/-- Settles O3: the second draw flips the same pixels back, and its collision is a pixel that the first one lit. -/
theorem drawingTwiceRestoresScreen : Obligations.DrawingTwiceRestoresScreen := by
  intro x y n s hx hy h
  refine ⟨drawn s x y n, drawn (drawn s x y n) x y n, exec_drw_inRange x y h, exec_drw_inRange x y h,
    screen_drawn_drawn hx hy, fun hdark => ?_, fun hnone => ?_⟩
  · exact reg_drawn_vf_of_collision ((collides_drawn_iff hx hy).2 hdark)
  · exact reg_drawn_vf_of_no_collision (mt (collides_drawn_iff hx hy).1 hnone)

/-- Refutes O4: over an all-lit Screen the first draw only darkens pixels, so the second meets none that is lit. -/
theorem not_secondDrawCollidesWheneverSpriteHasABit : ¬ Obligations.SecondDrawCollidesWheneverSpriteHasABit := by
  intro h
  have hrange : allLit.i.toNat + (0x1#4).toNat - 1 ≤ 0xFFF := by decide
  obtain ⟨t, u, ht, hu, -, -, hclear⟩ :=
    drawingTwiceRestoresScreen 0x0 0x0 0x1#4 allLit (by decide) (by decide) (.inr hrange)
  have hset : u.reg 0xF = 0x01#8 :=
    h 0x0 0x0 0x1#4 allLit t u (by decide) (by decide) hrange ⟨0, 0, spriteLandsOn_allLit⟩ ht hu
  have hnone : ¬ ∃ px py, SpriteLandsOn allLit 0x0 0x0 0x1#4 px py ∧ allLit.screen.pixel px py = false := by
    rintro ⟨px, py, -, hdark⟩
    rw [pixel_allLit] at hdark
    cases hdark
  exact absurd (hset.symm.trans (hclear hnone)) (by decide)

end Sys2Proof.Machine
end

