-- ==== Sys2Proof/Proofs/WholeMachine.lean ====
section
/-! PROOFS. Who writes what: the frame of every instruction (spec/40_step_cycle.md section 4), VF (spec/10_state.md R19), the
timers (spec/60_exceptions.md R122), the redraw flag (R30), and the split between the engine and the host (R15). -/

namespace Sys2Proof.Machine

/-! ### The pieces that a rule's Writes line names -/

theorem exists_ldDt_of_mayWrite {i : Instr} {s : State} (h : mayWrite i s .dt) : ∃ x, i = .ldDt x := by
  cases i with
  | ldDt x => exact ⟨x, rfl⟩
  | _ => simp [mayWrite] at h

theorem exists_ldSt_of_mayWrite {i : Instr} {s : State} (h : mayWrite i s .st) : ∃ x, i = .ldSt x := by
  cases i with
  | ldSt x => exact ⟨x, rfl⟩
  | _ => simp [mayWrite] at h

theorem not_mayWrite_key (i : Instr) (s : State) (k : Fin 16) : ¬ mayWrite i s (.key k) := by
  cases i <;> simp [mayWrite]

/-! ### The two writers of the state (R15) -/

theorem State.keys_ext {s t : State} (h : ∀ k, s.key k = t.key k) : s.keys = t.keys :=
  Vector.ext fun k hk => h ⟨k, hk⟩

theorem stepWith_keys {odd : Config.OddFetch} {s t : State} (h : stepWith odd s = .next t) : t.keys = s.keys := by
  refine State.keys_ext fun k => ?_
  by_contra hne
  obtain ⟨i, -, hw⟩ := mayWrite_of_stepWith (p := .key k) h hne (by simp) (by simp)
  exact not_mayWrite_key i _ k hw

/-! ### The timers (R122) -/

theorem ne_zero_of_tickDown_ne {b : Byte} (h : tickDown b ≠ b) : b ≠ 0x00#8 := by
  rintro rfl
  exact h rfl

/-! ### The redraw flag (R30) -/

theorem stepWith_redraw {odd : Config.OddFetch} {s t : State} (h : stepWith odd s = .next t) :
    (t.redraw = s.redraw ∧ t.screen = s.screen) ∨
      (t.redraw = true ∧
        (decodeWord (wordAtPc s) = some .cls ∨ ∃ x y n, decodeWord (wordAtPc s) = some (.drw x y n))) := by
  obtain rfl | ⟨f, rfl⟩ | ⟨f, rfl⟩ | ⟨i, hi, hx⟩ := stepWith_next h
  · exact .inl ⟨rfl, rfl⟩
  · exact .inl ⟨rfl, rfl⟩
  · exact .inl ⟨rfl, rfl⟩
  · obtain hkeep | ⟨hset, rfl | ⟨x, y, n, rfl⟩⟩ := exec_redraw hx
    · exact .inl hkeep
    · exact .inr ⟨hset, .inl hi⟩
    · exact .inr ⟨hset, .inr ⟨x, y, n, hi⟩⟩

/-- Where the flag and the Screen are as before, nothing has set or cleared the flag and nothing asks for it. -/
theorem redraw_clauses_of_eq {s t : State} {clears sets : Prop} (hflag : t.redraw = s.redraw) (hscreen : t.screen = s.screen) :
    (s.redraw = true → t.redraw = false → clears) ∧ (s.redraw = false → t.redraw = true → sets) ∧
      (t.screen ≠ s.screen → t.redraw = true) := by
  rw [hflag]
  exact ⟨fun hset hclear => absurd (hset.symm.trans hclear) (by decide),
    fun hclear hset => absurd (hclear.symm.trans hset) (by decide), fun hne => absurd hscreen hne⟩

/-! ### The obligations -/

/-- Settles O31: an instruction takes the fault of its own check, or goes on within its frame. -/
theorem instructionsWriteOnlyWhatTheirRuleLists : Obligations.InstructionsWriteOnlyWhatTheirRuleLists := by
  intro i s
  cases hc : ownFault i s with
  | some k =>
    obtain ⟨info, hfault⟩ := exec_takesFault hc
    exact ⟨_, hfault, .inr ⟨k, info, hfault⟩⟩
  | none =>
    obtain ⟨t, ht, hw⟩ := exec_goesOn hc
    exact ⟨t, ht, .inl hw⟩

/-- Settles O53: the keypad is on no Writes line, and each other call by its move. -/
theorem engineAndHostWriteOnlyTheirOwnState : Obligations.EngineAndHostWriteOnlyTheirOwnState := by
  intro odd op s t r hl h
  cases hostMove_of_hostCall h with
  | step hstep => exact ⟨loaded_of_stepWith hstep, fun _ => stepWith_keys hstep, fun hop => absurd rfl hop⟩
  | load hnot => simp [hnot] at hl
  | @resolveKey x v hm =>
    refine ⟨hl, nofun, fun _ => ⟨rfl, rfl, rfl, rfl, rfl, fun q hq => ?_⟩⟩
    obtain rfl : q = x := by
      by_contra hne
      exact hq ((State.reg_setReg s x q _).trans (if_neg hne))
    exact ⟨hm, v, rfl⟩
  | tickTimers | setKey | clearRedrawFlag =>
    exact ⟨hl, nofun, fun _ => ⟨rfl, rfl, rfl, rfl, rfl, fun _ hq => absurd rfl hq⟩⟩
  | stay hop => exact ⟨hl, fun hstep => absurd hstep hop, fun _ => ⟨rfl, rfl, rfl, rfl, rfl, fun _ hq => absurd rfl hq⟩⟩

/-- Settles O54: VF is written only where the Writes line names it, or names a register that may be VF. -/
theorem flagsRegisterChangesOnlyWhereListed : Obligations.FlagsRegisterChangesOnlyWhereListed := by
  intro i s t h hne
  have hw : mayWrite i s (.reg 0xF) := mayWrite_of_exec h hne (by simp)
  cases i with
  | addReg | sub | shr | subn | shl | drw => trivial
  | ldImm | addImm | ldReg | or | and | xor | ldVxDt => exact (Piece.reg.inj hw).symm
  | rnd x kk => simpa [mayWrite, eq_comm] using hw
  | ldIMem x =>
    obtain ⟨r, hr, hF⟩ := hw
    obtain rfl := Piece.reg.inj hF
    change x = 0xF
    bv_omega
  | _ => simp [mayWrite] at hw

/-- Settles O55: each call by its move; in a step, DT and ST stand on one Writes line each. -/
theorem timersChangeOnlyWhereListed : Obligations.TimersChangeOnlyWhereListed := by
  intro odd op s t r h
  cases hostMove_of_hostCall h with
  | step hstep =>
    refine ⟨fun hne => .inr ⟨rfl, ?_⟩, fun hne => .inr ⟨rfl, ?_⟩⟩
    · obtain ⟨i, hi, hw⟩ := mayWrite_of_stepWith (p := .dt) hstep hne (by simp) (by simp)
      obtain ⟨x, rfl⟩ := exists_ldDt_of_mayWrite hw
      exact ⟨x, hi⟩
    · obtain ⟨i, hi, hw⟩ := mayWrite_of_stepWith (p := .st) hstep hne (by simp) (by simp)
      obtain ⟨x, rfl⟩ := exists_ldSt_of_mayWrite hw
      exact ⟨x, hi⟩
  | tickTimers =>
    exact ⟨fun hne => .inl ⟨rfl, ne_zero_of_tickDown_ne hne⟩, fun hne => .inl ⟨rfl, ne_zero_of_tickDown_ne hne⟩⟩
  | load | resolveKey | setKey | clearRedrawFlag | stay => exact ⟨fun hne => absurd rfl hne, fun hne => absurd rfl hne⟩

/-- Settles O56: a step by the instruction it runs, each other call by its move. -/
theorem redrawFlagIsSetByDrawingAndClearedByHost : Obligations.RedrawFlagIsSetByDrawingAndClearedByHost := by
  intro odd op s t r h
  cases hostMove_of_hostCall h with
  | step hstep =>
    obtain ⟨hflag, hscreen⟩ | ⟨hset, hdraw⟩ := stepWith_redraw hstep
    · exact redraw_clauses_of_eq hflag hscreen
    · exact ⟨fun _ hclear => absurd (hset.symm.trans hclear) (by decide), fun _ _ => ⟨rfl, hdraw⟩, fun _ => hset⟩
  | clearRedrawFlag => exact ⟨fun _ _ => rfl, nofun, fun hne => absurd rfl hne⟩
  | load | resolveKey | tickTimers | setKey | stay => exact redraw_clauses_of_eq rfl rfl

end Sys2Proof.Machine
end

