-- ==== Sys2Proof/Proofs/SoundAndRedraw.lean ====
section
/-! PROOFS. No step reads ST or the redraw flag (spec/10_state.md R26, R30): the step of a state and the step of the state without
the two answer the same, once the two are forgotten in the answers as well. -/

namespace Sys2Proof.Machine

/-- A result with ST and the redraw flag forgotten. -/
def forgetInResult (r : Result) : Result :=
  match r with
  | .next t => .next (forgetSoundAndRedraw t)
  | .fault f => .fault f
  | .refused r => .refused r

theorem exists_next_of_forgetInResult {r : Result} {u : State} (h : forgetInResult r = .next u) :
    ∃ t, r = .next t ∧ u = forgetSoundAndRedraw t := by
  cases r with
  | next t => exact ⟨t, rfl, (Host.Outcome.next.inj h).symm⟩
  | fault f | refused f => cases h

/-! ### The shared operations -/

theorem forget_setRegs (s : State) (r : Nat) (bytes : List Byte) :
    forgetSoundAndRedraw (s.setRegs r bytes) = (forgetSoundAndRedraw s).setRegs r bytes := by
  induction bytes generalizing s r with
  | nil => rfl
  | cons b rest ih => exact ih _ _

theorem forget_skip (s : State) (c : Bool) :
    forgetSoundAndRedraw (s.skip c) = forgetSoundAndRedraw ((forgetSoundAndRedraw s).skip c) := by
  cases c <;> rfl

theorem forget_rangeChecked {s ok ok' : State} (count : Nat) (word : Word)
    (h : forgetSoundAndRedraw ok = forgetSoundAndRedraw ok') :
    forgetInResult (rangeChecked s count word ok) =
      forgetInResult (rangeChecked (forgetSoundAndRedraw s) count word ok') := by
  rw [rangeChecked, rangeChecked, show (forgetSoundAndRedraw s).i = s.i from rfl]
  cases checkRange s.i count with
  | some a => rfl
  | none => exact congrArg Host.Outcome.next h

theorem forget_keySkip (s : State) (x : Reg) (wanted : Bool) (word : Word) :
    forgetInResult (keySkip s x wanted word) = forgetInResult (keySkip (forgetSoundAndRedraw s) x wanted word) := by
  rw [keySkip, keySkip, show (forgetSoundAndRedraw s).reg x = s.reg x from rfl]
  cases keyOperand (s.reg x) with
  | none => rfl
  | some k => exact congrArg Host.Outcome.next (forget_skip s _)

/-! ### An instruction and a step -/

theorem forget_exec (i : Instr) (s : State) :
    forgetInResult (exec i s) = forgetInResult (exec i (forgetSoundAndRedraw s)) := by
  cases i with
  | ret =>
    obtain hempty | ⟨rest, v, hstack⟩ := s.stack.eq_nil_or_concat'
    · rw [show exec .ret s = _ from exec_ret_empty hempty,
        show exec .ret (forgetSoundAndRedraw s) = _ from exec_ret_empty hempty]
      rfl
    · rw [exec_ret_top hstack, exec_ret_top (s := forgetSoundAndRedraw s) hstack]
      rfl
  | call nnn =>
    obtain hroom | hfull := lt_or_ge s.stack.length 16
    · rw [exec_call_room nnn hroom, exec_call_room (s := forgetSoundAndRedraw s) nnn hroom]
      rfl
    · rw [show exec (.call nnn) s = _ from exec_call_full nnn hfull,
        show exec (.call nnn) (forgetSoundAndRedraw s) = _ from exec_call_full nnn hfull]
      rfl
  | drw x y n =>
    change forgetInResult (execDrw x y n s) = forgetInResult (execDrw x y n (forgetSoundAndRedraw s))
    unfold execDrw
    split
    · rfl
    · exact forget_rangeChecked _ _ rfl
  | ldB | ldMemI => exact forget_rangeChecked _ _ rfl
  | ldIMem x => exact forget_rangeChecked _ _ (by rw [forget_setRegs, forget_setRegs]; rfl)
  | skp | sknp => exact forget_keySkip _ _ _ _
  | seImm | sneImm | seReg | sneReg => exact congrArg Host.Outcome.next (forget_skip s _)
  | _ => rfl

theorem forget_stepWith (odd : Config.OddFetch) (s : State) :
    forgetInResult (stepWith odd s) = forgetInResult (stepWith odd (forgetSoundAndRedraw s)) := by
  have hfetch : fetchChecked odd s = fetchChecked odd (forgetSoundAndRedraw s) := fetchChecked_congr odd rfl rfl
  obtain ⟨hl, he⟩ | ⟨hl, hm, he⟩ | ⟨hl, hm, f, hf, he⟩ | ⟨hl, hm, w, hf, hw, he⟩ | ⟨hl, hm, w, i, hf, hw, he⟩ :=
    stepWith_cases odd s <;> rw [he]
  · rw [stepWith_notLoaded odd (forgetSoundAndRedraw s) hl]
  · rw [stepWith_of_not_running (s := forgetSoundAndRedraw s) hl hm]
    rfl
  · rw [stepWith_fetchFault odd (forgetSoundAndRedraw s) hl hm f (hfetch.symm.trans hf)]
    rfl
  · rw [stepWith_illegal odd (forgetSoundAndRedraw s) hl hm w (hfetch.symm.trans hf) hw]
    rfl
  · rw [stepWith_exec odd (forgetSoundAndRedraw s) hl hm w (hfetch.symm.trans hf) i hw]
    exact forget_exec i s.advance

/-- Settles O57: both steps answer what the step of the state they share answers. -/
theorem noStepReadsSoundTimerOrRedrawFlag : Obligations.NoStepReadsSoundTimerOrRedrawFlag := by
  intro odd s s' t hsame h
  have hstep : forgetInResult (stepWith odd s') = .next (forgetSoundAndRedraw t) := by
    rw [forget_stepWith, ← hsame, ← forget_stepWith, h]
    rfl
  exact exists_next_of_forgetInResult hstep

end Sys2Proof.Machine
end

