-- ==== Sys2Proof/Proofs/Sequences.lean ====
section
/-! PROOFS. What one operation leaves for a later one: a call for the return (spec/95_test_vectors.md L1 EX5), a store for a load or
a fetch (EX6, spec/20_memory.md section 7), Fx18 for the ticks after it (spec/45_input_timers.md), a placed or a final word for
the next step (spec/70_reset_and_hazards.md R138). -/

namespace Sys2Proof.Machine

/-! ### A store, then a read of what it stored (R35, R105, R106) -/

/-- A store moves no check of the fetch, so the fetch reads what the store has left. -/
theorem fetchChecked_setMem {odd : Config.OddFetch} {s : State} {pc : Word} (h : FetchesAtPc odd { s with pc := pc })
    (m : Memory) :
    fetchChecked odd { s.setMem m with pc := pc } = .ok (m.read pc.toNat ++ m.read (pc.toNat + 1)) :=
  FetchesAtPc.fetchChecked_eq (s := { s.setMem m with pc := pc }) h

/-! ### The tone (R121, R123) -/

theorem isHalted_tickTimers (s : State) : (tickTimers s).isHalted = s.isHalted := by
  rw [State.isHalted, State.isHalted, tickTimers_mode]

/-- Each tick takes one off ST, down to 0. -/
theorem toNat_st_iterate_tickTimers {s : State} (h : s.isHalted = false) (k : Nat) :
    (tickTimers^[k] s).st.toNat = s.st.toNat - k := by
  induction k generalizing s with
  | zero => rfl
  | succ k ih =>
    rw [Function.iterate_succ_apply, ih ((isHalted_tickTimers s).trans h), tickTimers_of_not_halted h, toNat_tickDown]
    omega

/-! ### The word a step runs (R138, log entry 7) -/

theorem fetchable_iff (odd : Config.OddFetch) (s : State) : fetchable odd s.pc = true ↔ FetchesAtPc odd s := by
  cases odd <;> simp [fetchable, FetchesAtPc]

theorem pc_placeFetchWord {odd : Config.OddFetch} {s : State} (w : Word) (h : FetchesAtPc odd s) :
    (placeFetchWord odd s w).pc = s.pc :=
  if_pos ((fetchable_iff odd s).2 h)

theorem fetchesAtPc_placeFetchWord (odd : Config.OddFetch) (s : State) (w : Word) :
    FetchesAtPc odd (placeFetchWord odd s w) := by
  by_cases h : FetchesAtPc odd s
  · rwa [FetchesAtPc, pc_placeFetchWord w h]
  · have hpc : (placeFetchWord odd s w).pc = 0x0200#16 := if_neg (mt (fetchable_iff odd s).1 h)
    rw [FetchesAtPc, hpc]
    exact ⟨by decide, .inl (by decide)⟩

theorem wordAtPc_placeFetchWord (odd : Config.OddFetch) (s : State) (w : Word) : wordAtPc (placeFetchWord odd s w) = w := by
  have hread {k : Nat} (hk : k < [highByte w, lowByte w].length) :
      (placeFetchWord odd s w).mem.read ((placeFetchWord odd s w).pc.toNat + k) = [highByte w, lowByte w][k] :=
    Memory.read_writeBytes_add s.mem _ hk
  rw [wordAtPc, hread Nat.one_lt_two, ← Nat.add_zero (placeFetchWord odd s w).pc.toNat, hread Nat.two_pos]
  exact joinBytes_high_low w

theorem decodeWord_of_decodeTableWord {nbits w : Nat} {i : Instr} (h : decodeTableWord nbits w = some i) :
    decodeWord (tableWord nbits w) = some i := by
  rw [decodeTableWord, decode, joinBytes_high_low] at h
  cases hd : decodeWord (tableWord nbits w) with
  | none => rw [hd] at h; cases h
  | some j => rw [hd] at h; exact h

theorem encode_jp (nnn : Addr) : encode (.jp nnn) = 0x1000#16 ||| addrOperand nnn := by
  rfl

theorem fetchesAtPc_of_isOver {odd : Config.OddFetch} {s : State} {endAddr : Addr} (h : isOver endAddr s) :
    FetchesAtPc odd s := by
  obtain ⟨-, hrange, heven, hpc, -⟩ := h
  rw [FetchesAtPc, hpc]
  exact ⟨(toNat_addrOperand endAddr).trans_le hrange, .inl (by simpa using heven)⟩

theorem decodeWord_of_isOver {s : State} {endAddr : Addr} (h : isOver endAddr s) :
    decodeWord (wordAtPc s) = some (.jp endAddr) := by
  obtain ⟨-, -, -, hpc, hword⟩ := h
  have haddr : s.pc.toNat = endAddr.toNat := hpc ▸ toNat_addrOperand endAddr
  rw [wordAtPc, haddr, hword]
  exact encode_jp endAddr ▸ decodeWord_encode (.jp endAddr)

/-- The jump at END_ADDR writes to PC what PC held before the base advance. -/
theorem stepWith_of_isOver {odd : Config.OddFetch} {s : State} {endAddr : Addr} (hl : s.loaded = true)
    (h : isOver endAddr s) : stepWith odd s = .next s := by
  have hfetch : FetchesAtPc odd s := fetchesAtPc_of_isOver h
  have hdecode := decodeWord_of_isOver h
  obtain ⟨hm, -, -, hpc, -⟩ := h
  rw [stepWith_eq_exec hl hm hfetch hdecode]
  change Host.Outcome.next (s.advance.setPc (endAddr.setWidth 16)) = _
  rw [← hpc]
  rfl

/-! ### The obligations -/

/-- Settles O8: the call leaves the advanced PC on top of the stack, and the return takes it from there. -/
theorem callThenReturnComesBack : Obligations.CallThenReturnComesBack := by
  intro odd s nnn hl hm hfetch hword hroom hfetch' hword'
  have hcall : decodeWord (wordAtPc s) = some (.call nnn) := hword ▸ decodeWord_encode (.call nnn)
  have hret : decodeWord (wordAtPc { s with pc := nnn.setWidth 16 }) = some .ret := hword' ▸ decodeWord_encode .ret
  refine ⟨_, (stepWith_eq_exec hl hm hfetch hcall).trans (exec_call_room nnn hroom), rfl, rfl, ?_⟩
  exact (stepWith_eq_exec (s := { s with stack := s.stack ++ [s.pc + 2], pc := nnn.setWidth 16 }) hl hm hfetch' hret).trans
    (exec_ret_top (rest := s.stack) (v := s.pc + 2) rfl)

/-- Settles O20: the load reads, register by register, the byte the store has put there. -/
theorem storeThenLoadRestoresRegisters : Obligations.StoreThenLoadRestoresRegisters := by
  intro x s h
  refine ⟨_, exec_ldMemI_inRange h, fun u hmem hi => ⟨_, exec_ldIMem_inRange (by rw [hi]; exact h), fun r hr => ?_⟩⟩
  rw [u.reg_setRegs_readBytes hr, hmem, hi]
  exact Memory.read_writeBytes_regsUpTo s hr

/-- Settles O21: the fetch reads the same two addresses the store has written. -/
theorem storesAreSeenByLaterFetch : Obligations.StoresAreSeenByLaterFetch := by
  refine fun odd x s pc hfetch => ⟨fun h => ?registers, fun h => ?digits⟩
  case registers =>
    refine ⟨_, exec_ldMemI_inRange h, _, _, fetchChecked_setMem hfetch _, fun r hr hpc => ?_, fun r hr hpc => ?_⟩
    · rw [hpc, Memory.read_writeBytes_regsUpTo s hr]
    · rw [hpc, Memory.read_writeBytes_regsUpTo s hr]
  case digits =>
    have hdigit {k : Nat} (hk : k < 3) := s.mem.toNat_read_writeBytes_decimalDigits s.i.toNat (s.reg x) hk
    refine ⟨_, exec_ldB_inRange x h, _, _, fetchChecked_setMem hfetch _, fun hpc => ?_, fun hpc => ?_, fun hpc => ?_,
      fun hpc => ?_⟩
    · rw [hpc]; exact ⟨hdigit (k := 0) (by decide), hdigit (k := 1) (by decide)⟩
    · rw [hpc]; exact ⟨hdigit (k := 1) (by decide), hdigit (k := 2) (by decide)⟩
    · rw [hpc]; exact hdigit (k := 2) (by decide)
    · rw [hpc]; exact hdigit (k := 0) (by decide)

/-- Settles O35: ST starts at Vx, and the tone is on while it is not 0. -/
theorem toneLastsExactlyTheTicksLoaded : Obligations.ToneLastsExactlyTheTicksLoaded := by
  intro x s k h
  refine ⟨s.setSt (s.reg x), rfl, ?_⟩
  have hst := toNat_st_iterate_tickTimers (s := s.setSt (s.reg x)) (s.isHalted_eq_false_iff.2 h) k
  rw [State.setSt_st] at hst
  rw [toneOn_iff, ← BitVec.toNat_ne_iff_ne, hst, BitVec.toNat_ofNat]
  omega

/-- Settles O44: the word at PC is the jump to PC itself. -/
theorem overRunStepsChangeNothing : Obligations.OverRunStepsChangeNothing :=
  fun _ _ _ hl h => ⟨stepWith_of_isOver hl h, stepWith_of_isOver hl h⟩

/-- Settles O45: the placed word lies where the next fetch reads, on a loaded running machine. -/
theorem placedWordIsTheNextInstructionRun : Obligations.PlacedWordIsTheNextInstructionRun := by
  intro s w i hi
  refine ⟨stepWith_eq_exec rfl rfl (fetchesAtPc_placeFetchWord _ s _) ?_, rfl, pc_placeFetchWord _⟩
  rw [State.withFetchWord, wordAtPc_placeFetchWord]
  exact decodeWord_of_decodeTableWord hi

end Sys2Proof.Machine
end

