-- ==== Sys2Proof/Proofs/FreeValues.lean ====
section
/-! PROOFS. Where the model fills in what the spec leaves free (log entries 1 and 4): the drawn byte of Cxkk (spec/43_alu.md R100),
and the reset contents that `State.reset` does not list (spec/70_reset_and_hazards.md R134). -/

namespace Sys2Proof.Machine

/-! ### The draw (R100) -/

theorem and_mask_and_not (b kk : Byte) : (b &&& kk) &&& ~~~kk = 0x00#8 := by
  rw [BitVec.and_assoc, BitVec.and_not_self]
  simp

/-! ### Writing the reset contents -/

theorem Memory.write_nil_initial (a : Nat) : Memory.write [] a (Memory.initial a) = [] := if_pos rfl

/-- A run of bytes that are the reset contents of their addresses leaves the memory that lists nothing. -/
theorem Memory.writeBytes_nil_of_initial {base : Nat} {bytes : List Byte}
    (h : ∀ k (hk : k < bytes.length), bytes[k] = Memory.initial (base + k)) : Memory.writeBytes [] base bytes = [] := by
  induction bytes generalizing base with
  | nil => rfl
  | cons b rest ih =>
    have hb : b = Memory.initial base := h 0 (by simp)
    rw [Memory.writeBytes, hb, Memory.write_nil_initial]
    refine ih fun k hk => ?_
    rw [Nat.add_assoc, Nat.add_comm 1 k]
    exact h (k + 1) (by simpa using hk)

theorem Memory.writeBytes_nil_defaultFont : Memory.writeBytes [] 0 (Config.fontBytes Config.defaultFont) = [] := by
  refine Memory.writeBytes_nil_of_initial fun k hk => ?_
  rw [Nat.zero_add]
  exact (List.getD_eq_getElem _ _ hk).symm

theorem Memory.writeBytes_nil_zeros (n : Nat) : Memory.writeBytes [] 0x050 (List.replicate n 0x00#8) = [] := by
  refine Memory.writeBytes_nil_of_initial fun k hk => ?_
  rw [List.getElem_replicate, Memory.initial_above_font (Nat.le_add_right _ _)]

theorem construct_defaultFont_zeros (zeros : Nat) :
    construct Config.defaultFont { mem := List.replicate zeros 0x00#8 } = State.reset := by
  rw [construct, Memory.writeBytes_nil_defaultFont, List.take_replicate, Memory.writeBytes_nil_zeros]
  rfl

/-! ### The obligations -/

/-- Settles O15: the draw is counted and the masked byte written; the mask leaves no bit outside `kk`. -/
theorem randomWritesMaskedFreeByte : Obligations.RandomWritesMaskedFreeByte := by
  refine fun x kk => ⟨encodesAs_encode (.rnd x kk), fun s => ?_⟩
  have hreg := (s.setDraws (s.draws + 1)).reg_setReg_self x (Config.randByte s.draws &&& kk)
  exact ⟨_, rfl, hreg, by rw [hreg, and_mask_and_not], rfl, onlyWrites_of_exec (i := .rnd x kk) rfl rfl⟩

/-- Settles O41: every byte that construction writes is the reset contents of its address, so Memory lists none of them. -/
theorem resetIsConstructionWithTheDefaults : Obligations.ResetIsConstructionWithTheDefaults :=
  ⟨(construct_defaultFont_zeros 0).symm, construct_defaultFont_zeros⟩

end Sys2Proof.Machine
end
